-- ==== Sys2Proof/Word.lean ====
section
/-! DEFINITION. The one value type of the machine: an unsigned 8-bit byte (`00_scope.md` R12). -/

namespace Sys2Proof

/-- A register value, memory cell, operand byte, address or immediate (`00_scope.md` R12). -/
abbrev Byte := BitVec 8

end Sys2Proof
end

