-- ==== Sys2Proof/Config.lean ====
section
/-! DEFINITION. The named parameters of `00_scope.md` R10, as plain data. `FUEL` is the host's step budget and no part of
`Config`: Machine/HostView.lean's runs take it. The default values are in Decode.lean. -/

namespace Sys2Proof

/-- `UNDERFLOW_POLICY`: what POP does when SP is the empty-stack sentinel (`43_stack.md` R105). -/
inductive UnderflowPolicy
  | silent
  | fatal
  deriving DecidableEq, Repr

/-- `OPERAND_FETCH`: which operand bytes are fetched (`40_execution_loop.md` R71). -/
inductive OperandFetch
  | byCount
  | alwaysTwo
  deriving DecidableEq, Repr

/-- `FUEL`: the host's step budget, a natural number or unbounded (`00_scope.md` R10, `60_exceptions.md` R129). -/
inductive Fuel
  | steps (n : Nat)
  | unbounded
  deriving DecidableEq, Repr

/-- `OPCODE_TABLE`: the opcode byte of each mnemonic, in the order of `30_encoding.md` R60. -/
structure OpcodeTable where
  add : Byte
  sub : Byte
  mul : Byte
  div : Byte
  mod : Byte
  and : Byte
  or : Byte
  xor : Byte
  not : Byte
  shl : Byte
  shr : Byte
  inc : Byte
  dec : Byte
  cmp : Byte
  ldi : Byte
  prn : Byte
  hlt : Byte
  push : Byte
  pop : Byte
  call : Byte
  ret : Byte
  jmp : Byte
  jeq : Byte
  jne : Byte
  deriving DecidableEq, Repr

/-- The configuration a machine is constructed with (`00_scope.md` R10). No step changes it. -/
structure Config where
  underflowPolicy : UnderflowPolicy
  operandFetch : OperandFetch
  table : OpcodeTable
  deriving DecidableEq, Repr

end Sys2Proof
end

