-- ==== Sys2Proof/Syntax.lean ====
section
/-! DEFINITION. The instructions: the 24 mnemonics of `30_encoding.md` R60, the four formats of R56, and one
constructor of `Instr` per row of spec/opcode_table.json. An operand is a raw byte (R50, R57, R58): the check of a
register index happens when the instruction runs, never at decode. -/

namespace Sys2Proof

/-- The four instruction formats of `30_encoding.md` R56. -/
inductive Format
  | f0
  | f1r
  | f2rr
  | f2ri
  deriving DecidableEq, Repr

/-- The 24 mnemonics, in the order of `30_encoding.md` R60. -/
inductive Mnemonic
  | add
  | sub
  | mul
  | div
  | mod
  | and
  | or
  | xor
  | not
  | shl
  | shr
  | inc
  | dec
  | cmp
  | ldi
  | prn
  | hlt
  | push
  | pop
  | call
  | ret
  | jmp
  | jeq
  | jne
  deriving DecidableEq, Repr

/-- The 14 operations of simple_alu (`41_alu.md` R80, in the source's order). -/
inductive AluOp
  | add
  | sub
  | mul
  | div
  | mod
  | and
  | or
  | xor
  | not
  | shl
  | shr
  | inc
  | dec
  | cmp
  deriving DecidableEq, Repr

/-- An instruction with its operand bytes: `a` is operand byte 1, `b` or `imm` operand byte 2 (`30_encoding.md` R56). -/
inductive Instr
  | add (a b : Byte)
  | sub (a b : Byte)
  | mul (a b : Byte)
  | div (a b : Byte)
  | mod (a b : Byte)
  | and (a b : Byte)
  | or (a b : Byte)
  | xor (a b : Byte)
  | not (a : Byte)
  | shl (a b : Byte)
  | shr (a b : Byte)
  | inc (a : Byte)
  | dec (a : Byte)
  | cmp (a b : Byte)
  | ldi (a imm : Byte)
  | prn (a : Byte)
  | hlt
  | push (a : Byte)
  | pop (a : Byte)
  | call (a : Byte)
  | ret
  | jmp (a : Byte)
  | jeq (a : Byte)
  | jne (a : Byte)
  deriving DecidableEq, Repr

end Sys2Proof
end

