-- ==== Sys2Proof/WellFormed.lean ====
section
/-! DEFINITION. Well-formed instructions: every register operand names a register R0 to R7 (`10_state.md` R18,
`30_encoding.md` R57). An ill-formed instruction still decodes and runs: it raises RegisterOutOfRange. The immediate of
LDI is unconstrained (R58). -/

namespace Sys2Proof

/-- An operand byte in 0..7 names a register; 8 to 255 names none (`30_encoding.md` R57). -/
def namesRegister (r : Byte) : Bool := decide (r.toNat < 8)

/-- The operand bytes that are register operands (`30_encoding.md` R56). -/
def Instr.registerOperands : Instr → List Byte
  | .add a b => [a, b]
  | .sub a b => [a, b]
  | .mul a b => [a, b]
  | .div a b => [a, b]
  | .mod a b => [a, b]
  | .and a b => [a, b]
  | .or a b => [a, b]
  | .xor a b => [a, b]
  | .not a => [a]
  | .shl a b => [a, b]
  | .shr a b => [a, b]
  | .inc a => [a]
  | .dec a => [a]
  | .cmp a b => [a, b]
  | .ldi a _ => [a]
  | .prn a => [a]
  | .hlt => []
  | .push a => [a]
  | .pop a => [a]
  | .call a => [a]
  | .ret => []
  | .jmp a => [a]
  | .jeq a => [a]
  | .jne a => [a]

/-- Every register operand names a register. -/
def Instr.wf (i : Instr) : Bool := i.registerOperands.all namesRegister

end Sys2Proof
end

