-- ==== Sys2Proof/Decode.lean ====
section
/-! DEFINITION. The instruction decoder and the encoder (`30_encoding.md`): the opcode byte's fields, the opcode table
and its constraints, decoding of a list of bytes, encoding back, and the host's `decodeTableWord`. -/

namespace Sys2Proof

/-- All mnemonics, in the order of `30_encoding.md` R60. -/
def Mnemonic.all : List Mnemonic :=
  [.add, .sub, .mul, .div, .mod, .and, .or, .xor, .not, .shl, .shr, .inc, .dec, .cmp] ++
  [.ldi, .prn, .hlt, .push, .pop, .call, .ret, .jmp, .jeq, .jne]

/-- All ALU operations, in the order of `41_alu.md`. -/
def AluOp.all : List AluOp :=
  [.add, .sub, .mul, .div, .mod, .and, .or, .xor, .not, .shl, .shr, .inc, .dec, .cmp]

def AluOp.mnemonic : AluOp → Mnemonic
  | .add => .add
  | .sub => .sub
  | .mul => .mul
  | .div => .div
  | .mod => .mod
  | .and => .and
  | .or => .or
  | .xor => .xor
  | .not => .not
  | .shl => .shl
  | .shr => .shr
  | .inc => .inc
  | .dec => .dec
  | .cmp => .cmp

/-- The format of each mnemonic (`30_encoding.md` R56). -/
def Mnemonic.format : Mnemonic → Format
  | .add | .sub | .mul | .div | .mod | .and | .or | .xor | .shl | .shr | .cmp => .f2rr
  | .not | .inc | .dec => .f1r
  | .ldi => .f2ri
  | .prn | .push | .pop | .call | .jmp | .jeq | .jne => .f1r
  | .hlt | .ret => .f0

/-- The number of operand bytes of a format (`30_encoding.md` R56). -/
def Format.operandCount : Format → Nat
  | .f0 => 0
  | .f1r => 1
  | .f2rr => 2
  | .f2ri => 2

def Mnemonic.operandCount (m : Mnemonic) : Nat := m.format.operandCount

/-- The 14 ALU operations (`30_encoding.md` R61, constraint 3). -/
def Mnemonic.isAlu : Mnemonic → Bool
  | .add | .sub | .mul | .div | .mod | .and | .or | .xor | .not | .shl | .shr | .inc | .dec | .cmp => true
  | .ldi | .prn | .hlt | .push | .pop | .call | .ret | .jmp | .jeq | .jne => false

/-- The five instructions that set the PC (`30_encoding.md` R61, constraint 4). -/
def Mnemonic.setsPc : Mnemonic → Bool
  | .call | .ret | .jmp | .jeq | .jne => true
  | .add | .sub | .mul | .div | .mod | .and | .or | .xor | .not | .shl | .shr | .inc | .dec | .cmp => false
  | .ldi | .prn | .hlt | .push | .pop => false

/-! ### The fields of an opcode byte (`30_encoding.md` R51 to R54) -/

/-- `N = op[7:6]` (R51). -/
def opCount (op : Byte) : Nat := (op.extractLsb' 6 2).toNat

/-- `isALU = op[5]` (R52). -/
def opIsAlu (op : Byte) : Bool := op.getLsbD 5

/-- `setsPC = op[4]` (R53). -/
def opSetsPc (op : Byte) : Bool := op.getLsbD 4

/-- The identifier `op[3:0]` (R54); for an ALU opcode, the ALU selector (R52). -/
def opIdent (op : Byte) : BitVec 4 := op.extractLsb' 0 4

/-! ### The opcode table -/

/-- The opcode byte a table gives a mnemonic. -/
def OpcodeTable.byteOf (t : OpcodeTable) : Mnemonic → Byte
  | .add => t.add
  | .sub => t.sub
  | .mul => t.mul
  | .div => t.div
  | .mod => t.mod
  | .and => t.and
  | .or => t.or
  | .xor => t.xor
  | .not => t.not
  | .shl => t.shl
  | .shr => t.shr
  | .inc => t.inc
  | .dec => t.dec
  | .cmp => t.cmp
  | .ldi => t.ldi
  | .prn => t.prn
  | .hlt => t.hlt
  | .push => t.push
  | .pop => t.pop
  | .call => t.call
  | .ret => t.ret
  | .jmp => t.jmp
  | .jeq => t.jeq
  | .jne => t.jne

/-- Constraints 2, 3, 4 and 6 of `30_encoding.md` R61 for one mnemonic's byte. -/
def OpcodeTable.fieldsOk (t : OpcodeTable) (m : Mnemonic) : Bool :=
  decide (opCount (t.byteOf m) = m.operandCount) && (opIsAlu (t.byteOf m) == m.isAlu) &&
  (opSetsPc (t.byteOf m) == m.setsPc) && decide (opCount (t.byteOf m) ≠ 3)

/-- The six constraints of `30_encoding.md` R61: distinct bytes (1), the fields of each byte (2, 3, 4, 6), distinct ALU
selectors (5). -/
def OpcodeTable.ok (t : OpcodeTable) : Bool :=
  decide (Mnemonic.all.map t.byteOf).Nodup && Mnemonic.all.all t.fieldsOk &&
  decide (AluOp.all.map fun o => opIdent (t.byteOf o.mnemonic)).Nodup

/-- The default table of `30_encoding.md` R60. PRESUMED (log entry 2): the byte values are the LS-8 assignment, which
the spec marks as general knowledge (93 G2, 92 D1). Unsafe for a claim about one table. -/
def OpcodeTable.default : OpcodeTable where
  add := 0xA0#8
  sub := 0xA1#8
  mul := 0xA2#8
  div := 0xA3#8
  mod := 0xA4#8
  and := 0xA8#8
  or := 0xAA#8
  xor := 0xAB#8
  not := 0x69#8
  shl := 0xAC#8
  shr := 0xAD#8
  inc := 0x65#8
  dec := 0x66#8
  cmp := 0xA7#8
  ldi := 0x82#8
  prn := 0x47#8
  hlt := 0x01#8
  push := 0x45#8
  pop := 0x46#8
  call := 0x50#8
  ret := 0x11#8
  jmp := 0x54#8
  jeq := 0x55#8
  jne := 0x56#8

/-- The default parameters of `00_scope.md` R10: Silent, ByCount, and the table of `30_encoding.md` R60. -/
def Config.default : Config where
  underflowPolicy := .silent
  operandFetch := .byCount
  table := OpcodeTable.default

/-! ### The decoder -/

/-- The descriptor of `30_encoding.md` R55; `instr = none` is Unsupported. -/
structure Descriptor where
  count : Nat
  isAlu : Bool
  setsPc : Bool
  ident : BitVec 4
  instr : Option Mnemonic
  deriving DecidableEq, Repr

/-- An exact match of the whole opcode byte against the table (`30_encoding.md` R62). -/
def OpcodeTable.lookup (t : OpcodeTable) (op : Byte) : Option Mnemonic :=
  Mnemonic.all.find? fun m => t.byteOf m == op

/-- `Decode(op)` of `30_encoding.md` R55: total on bytes, reads no state. -/
def decodeByte (t : OpcodeTable) (op : Byte) : Descriptor where
  count := opCount op
  isAlu := opIsAlu op
  setsPc := opSetsPc op
  ident := opIdent op
  instr := t.lookup op

/-- The ALU operation a 4-bit selector names (`30_encoding.md` R52, `41_alu.md` R81). -/
def OpcodeTable.aluOf (t : OpcodeTable) (sel : BitVec 4) : Option AluOp :=
  AluOp.all.find? fun o => opIdent (t.byteOf o.mnemonic) == sel

/-- Why a list of bytes does not decode. -/
inductive DecodeReject
  /-- No byte at all. -/
  | noBytes
  /-- The first byte is not in the opcode table (`30_encoding.md` R62). -/
  | unsupportedOpcode (op : Byte)
  /-- The bytes end before the instruction's last operand byte. -/
  | missingOperand (m : Mnemonic)
  deriving DecidableEq, Repr

/-- How many operand bytes a mnemonic's constructor takes, with the constructor. -/
inductive Shape
  | none (i : Instr)
  | one (mk : Byte → Instr)
  | two (mk : Byte → Byte → Instr)

def Mnemonic.shape : Mnemonic → Shape
  | .add => .two .add
  | .sub => .two .sub
  | .mul => .two .mul
  | .div => .two .div
  | .mod => .two .mod
  | .and => .two .and
  | .or => .two .or
  | .xor => .two .xor
  | .not => .one .not
  | .shl => .two .shl
  | .shr => .two .shr
  | .inc => .one .inc
  | .dec => .one .dec
  | .cmp => .two .cmp
  | .ldi => .two .ldi
  | .prn => .one .prn
  | .hlt => .none .hlt
  | .push => .one .push
  | .pop => .one .pop
  | .call => .one .call
  | .ret => .none .ret
  | .jmp => .one .jmp
  | .jeq => .one .jeq
  | .jne => .one .jne

/-- Takes a mnemonic's operand bytes off a list: operand byte 1 first (`30_encoding.md` R50, R56). -/
def Mnemonic.build (m : Mnemonic) (bytes : List Byte) : Option (Instr × List Byte) :=
  match m.shape with
  | .none i => some (i, bytes)
  | .one mk =>
    match bytes with
    | a :: rest => some (mk a, rest)
    | [] => none
  | .two mk =>
    match bytes with
    | a :: b :: rest => some (mk a b, rest)
    | _ => none

/-- Reads one instruction off the front of a list of bytes, opcode byte first (`30_encoding.md` R50), or rejects it by
name. A register operand byte is not checked here (R57). -/
def decode (t : OpcodeTable) (bytes : List Byte) : Except DecodeReject (Instr × List Byte) :=
  match bytes with
  | [] => .error .noBytes
  | op :: rest =>
    match (decodeByte t op).instr with
    | none => .error (.unsupportedOpcode op)
    | some m =>
      match m.build rest with
      | some r => .ok r
      | none => .error (.missingOperand m)

/-! ### The encoder -/

def Instr.mnemonic : Instr → Mnemonic
  | .add _ _ => .add
  | .sub _ _ => .sub
  | .mul _ _ => .mul
  | .div _ _ => .div
  | .mod _ _ => .mod
  | .and _ _ => .and
  | .or _ _ => .or
  | .xor _ _ => .xor
  | .not _ => .not
  | .shl _ _ => .shl
  | .shr _ _ => .shr
  | .inc _ => .inc
  | .dec _ => .dec
  | .cmp _ _ => .cmp
  | .ldi _ _ => .ldi
  | .prn _ => .prn
  | .hlt => .hlt
  | .push _ => .push
  | .pop _ => .pop
  | .call _ => .call
  | .ret => .ret
  | .jmp _ => .jmp
  | .jeq _ => .jeq
  | .jne _ => .jne

/-- The instruction of an ALU operation; a unary one has one operand byte (`30_encoding.md` R56). -/
def AluOp.instr (op : AluOp) (a b : Byte) : Instr :=
  match op with
  | .add => .add a b
  | .sub => .sub a b
  | .mul => .mul a b
  | .div => .div a b
  | .mod => .mod a b
  | .and => .and a b
  | .or => .or a b
  | .xor => .xor a b
  | .not => .not a
  | .shl => .shl a b
  | .shr => .shr a b
  | .inc => .inc a
  | .dec => .dec a
  | .cmp => .cmp a b

/-- The operand bytes in memory order (`30_encoding.md` R56). -/
def Instr.operands : Instr → List Byte
  | .add a b => [a, b]
  | .sub a b => [a, b]
  | .mul a b => [a, b]
  | .div a b => [a, b]
  | .mod a b => [a, b]
  | .and a b => [a, b]
  | .or a b => [a, b]
  | .xor a b => [a, b]
  | .not a => [a]
  | .shl a b => [a, b]
  | .shr a b => [a, b]
  | .inc a => [a]
  | .dec a => [a]
  | .cmp a b => [a, b]
  | .ldi a imm => [a, imm]
  | .prn a => [a]
  | .hlt => []
  | .push a => [a]
  | .pop a => [a]
  | .call a => [a]
  | .ret => []
  | .jmp a => [a]
  | .jeq a => [a]
  | .jne a => [a]

/-- The bytes of an instruction: the opcode byte, then its operand bytes (`30_encoding.md` R50). -/
def encode (t : OpcodeTable) (i : Instr) : List Byte := t.byteOf i.mnemonic :: i.operands

/-! ### Words numbered as spec/opcode_table.json numbers them -/

/-- The three bytes of a word of `nbits` bits, the first byte in bits 7..0; every bit above `nbits` is 0. -/
def bytesOfWord (nbits w : Nat) : List Byte :=
  let v := w % 2 ^ nbits
  [BitVec.ofNat 8 v, BitVec.ofNat 8 (v / 256), BitVec.ofNat 8 (v / 65536)]

/-- The instruction the decoder reads from a word of the opcode table, under the default table. -/
def decodeTableWord (nbits w : Nat) : Option Instr :=
  match decode OpcodeTable.default (bytesOfWord nbits w) with
  | .ok (i, _) => some i
  | .error _ => none

end Sys2Proof
end

