-- ==== Sys2Proof/Machine/State.lean ====
section
/-! DEFINITION. The whole state of the core (`10_state.md` R33) as plain data, the five error kinds and the error record
(`60_exceptions.md` R113, R119), the model's stops, and reset (`70_reset_and_hazards.md` R130). -/

namespace Sys2Proof.Machine

/-- The two states of the execution loop (`40_execution_loop.md` R67). -/
inductive Status
  | running
  | halted
  deriving DecidableEq, Repr

/-- The three flags FL.L, FL.G, FL.E (`10_state.md` R24, R28). -/
structure Flags where
  l : Bool
  g : Bool
  e : Bool
  deriving DecidableEq, Repr

/-- The five error kinds of `60_exceptions.md` R113. -/
inductive ErrorKind
  | unsupportedOpcode
  | arithmeticDomain
  | stackUnderflow
  | memoryOutOfRange
  | registerOutOfRange
  deriving DecidableEq, Repr

/-- The error record of `60_exceptions.md` R119: the failing instruction's address and opcode byte, the kind, and the
detail (none, or an integer: the computed address, or the operand byte's value; log entry 6). -/
structure ErrorRecord where
  kind : ErrorKind
  pc : Byte
  opcode : Byte
  detail : Option Int
  deriving DecidableEq, Repr

/-- What `raise <Kind>(info)` raises (`00_scope.md` R13, `60_exceptions.md` R113). -/
inductive Raised
  /-- The dispatch of a byte that is not in the opcode table. -/
  | unsupportedOpcode
  /-- DIV or MOD with a zero divisor. -/
  | arithmeticDomain
  /-- RET, or POP under the fatal policy, at the empty-stack sentinel. -/
  | stackUnderflow
  /-- An address computation outside 0..255. -/
  | memoryOutOfRange (addr : Int)
  /-- A register operand byte of 8 to 255. -/
  | registerOutOfRange (r : Byte)
  deriving DecidableEq, Repr

/-- Memory: the cells that do not hold the reset value, sorted by address (`20_memory.md` R34; Machine/Ops.lean says
what an unlisted address reads as and what the canonical form is). -/
abbrev Memory := List Host.Cell

/-- The complete state of the core (`10_state.md` R33), and the configuration the machine was constructed with. -/
structure State where
  /-- The parameters of `00_scope.md` R10. DESIGN CHOICE (log entry 1), safe: the spec says they are not state, and no
  step changes them; a claim about every state holds for every value of them. -/
  config : Config
  /-- R0 to R7; R7 is the stack pointer (`10_state.md` R15, R16). -/
  regs : Vector Byte 8
  /-- The program counter (`10_state.md` R20). -/
  pc : Byte
  /-- The flags (`10_state.md` R24). -/
  flags : Flags
  /-- Running or Halted (`10_state.md` R29). -/
  status : Status
  /-- The error that halted the machine, if any (`10_state.md` R29). -/
  error : Option ErrorRecord
  /-- The bytes PRN has emitted, oldest first (`10_state.md` R31). -/
  out : List Byte
  /-- The 256 cells (`20_memory.md` R34). -/
  mem : Memory
  deriving DecidableEq, Repr

/-- Why the machine stops without a next state. -/
inductive Fault
  /-- `step` raises it in Halted, where no transition exists (`40_execution_loop.md` R68). Safe: the spec's stuck state
  (93 U15), and the state it leaves is the one before (log entry 3). -/
  | halted
  deriving DecidableEq, Repr

/-- Why the model has no run or no meaning. -/
inductive Refusal
  /-- `exec` raises it for an instruction that has no meaning yet; no arm does. Safe. -/
  | notModelled (mnemonic : String)
  /-- `launch` raises it for an image of more than 256 bytes (`70_reset_and_hazards.md` R134). Safe: no run exists. -/
  | imageTooLong
  /-- `launchText` raises it for image text outside the format of `70_reset_and_hazards.md` R133. Safe (log entry 19). -/
  | imageMalformed
  /-- `launch` and `step` raise it for a configured opcode table that breaks `30_encoding.md` R61. Safe: no machine of
  this spec has such a table (log entry 5). -/
  | opcodeTableUnfit
  deriving DecidableEq, Repr

/-- The reset value of SP, which is also the empty-stack sentinel (`43_stack.md` R102). -/
def sentinel : Byte := 0xF4#8

/-- The registers at reset: R0 to R6 hold 0, R7 holds 0xF4 (`70_reset_and_hazards.md` R130). -/
def resetRegs : Vector Byte 8 := #v[0#8, 0#8, 0#8, 0#8, 0#8, 0#8, 0#8, sentinel]

/-- A freshly constructed machine (`70_reset_and_hazards.md` R130). The flags, the memory and the error field are at
values the spec decides itself (D9, D10, D13): log entries 8, 9 and 10, unsafe. -/
def State.construct (c : Config) : State where
  config := c
  regs := resetRegs
  pc := 0#8
  flags := { l := false, g := false, e := false }
  status := .running
  error := none
  out := []
  mem := []

/-- The machine right after reset, under the default parameters (`00_scope.md` R10; log entry 2). -/
def State.reset : State := State.construct Config.default

end Sys2Proof.Machine
end

