-- ==== Sys2Proof/Machine/Ops.lean ====
section
/-! DEFINITION. The named operations every instruction is built from: memory and registers, the range check of an
address computation, taking an error, and the end of a transition (control action and commit). -/

namespace Sys2Proof.Machine

/-! ### Memory (`20_memory.md` R34, R48) -/

/-- What an address that is not listed reads as: every cell holds 0 until it is written
(`70_reset_and_hazards.md` R131; the spec's own decision D10, log entry 9). -/
def Memory.unlisted : Byte := 0#8

/-- One byte of memory. -/
def Memory.read (m : Memory) (a : Nat) : Byte :=
  match m with
  | [] => Memory.unlisted
  | (k, v) :: rest => if k = a then v else Memory.read rest a

/-- Writes one byte, keeping the canonical form. -/
def Memory.write (m : Memory) (a : Nat) (v : Byte) : Memory :=
  match m with
  | [] => if v = Memory.unlisted then [] else [(a, v)]
  | (k, w) :: rest =>
    if a < k then
      if v = Memory.unlisted then (k, w) :: rest else (a, v) :: (k, w) :: rest
    else if a = k then
      if v = Memory.unlisted then rest else (a, v) :: rest
    else (k, w) :: Memory.write rest a v

/-- Writes consecutive bytes from an address up. -/
def Memory.writeAll (m : Memory) (a : Nat) (bytes : List Byte) : Memory :=
  match bytes with
  | [] => m
  | v :: rest => Memory.writeAll (Memory.write m a v) (a + 1) rest

/-- Every address from `lo` on is at least `lo` and below 256, addresses strictly rise, and no listed byte is the one an
unlisted address reads as. -/
def Memory.wfFrom (lo : Nat) (m : Memory) : Bool :=
  match m with
  | [] => true
  | (k, v) :: rest =>
    decide (lo ≤ k) && decide (k < 256) && decide (v ≠ Memory.unlisted) && Memory.wfFrom (k + 1) rest

/-- The canonical form, so that equal memories are equal lists. -/
def Memory.wf (m : Memory) : Bool := Memory.wfFrom 0 m

/-! ### Registers (`10_state.md` R15, R19) -/

/-- Reads register `r`. No register is hard-wired. -/
def State.readReg (s : State) (r : Fin 8) : Byte := s.regs[r]

/-- Writes register `r`. -/
def State.writeReg (s : State) (r : Fin 8) (v : Byte) : State := { s with regs := s.regs.set r v }

/-- R7, the stack pointer (`43_stack.md` R102). -/
def spIndex : Fin 8 := 7

/-- The stack pointer's value. -/
def State.sp (s : State) : Byte := s.readReg spIndex

/-! ### Address computations (`20_memory.md` R36, R48) -/

/-- The range check of every address computation: an integer outside 0..255 raises MemoryOutOfRange with that integer,
and is never wrapped (R36; the spec's decision D5, log entry 12). -/
def checkAddr (n : Int) : Except Raised Byte :=
  if 0 ≤ n ∧ n ≤ 255 then .ok (BitVec.ofInt 8 n) else .error (.memoryOutOfRange n)

/-- `MemRead(addr, 1)` (R48). -/
def memRead (s : State) (addr : Int) : Except Raised Byte := do
  let a ← checkAddr addr
  return s.mem.read a.toNat

/-- `MemWrite(addr, 1, v)` (R48), on the working copy. -/
def memWrite (s : State) (addr : Int) (v : Byte) : Except Raised State := do
  let a ← checkAddr addr
  return { s with mem := s.mem.write a.toNat v }

/-! ### Taking an error (`60_exceptions.md` R113, R119)

There is no return from an error to model: Halted is terminal, and there are no handlers (R112, R121). -/

def Raised.kind : Raised → ErrorKind
  | .unsupportedOpcode => .unsupportedOpcode
  | .arithmeticDomain => .arithmeticDomain
  | .stackUnderflow => .stackUnderflow
  | .memoryOutOfRange _ => .memoryOutOfRange
  | .registerOutOfRange _ => .registerOutOfRange

/-- The detail recorded (R113): the computed address, the operand byte's value, or none. -/
def Raised.detail : Raised → Option Int
  | .unsupportedOpcode => none
  | .arithmeticDomain => none
  | .stackUnderflow => none
  | .memoryOutOfRange addr => some addr
  | .registerOutOfRange r => some r.toNat

/-- The numeric code of a kind (R113; the spec's own codes). -/
def ErrorKind.code : ErrorKind → Nat
  | .unsupportedOpcode => 1
  | .arithmeticDomain => 2
  | .stackUnderflow => 3
  | .memoryOutOfRange => 4
  | .registerOutOfRange => 5

/-- The error entry of R119: status Halted and the error record; nothing else changes, and `pc` keeps the failing
instruction's address (decisions D8, D13, D20; log entries 10, 14, 18). -/
def State.takeError (s : State) (op : Byte) (e : Raised) : State :=
  { s with
    status := .halted
    error := some { kind := e.kind, pc := s.pc, opcode := op, detail := e.detail } }

/-! ### The end of a transition (`40_execution_loop.md` R74 to R76) -/

/-- The three control actions of R74. -/
inductive Action
  | advance
  | setPc (t : Byte)
  | halt
  deriving DecidableEq, Repr

/-- The PC update of R75, done last, on the working copy `w`, whose `pc` is still the instruction's address. HLT keeps
it (decision D8, log entry 14); an advance past 255 raises (decision D21, log entry 12). -/
def applyAction (op : Byte) (w : State) (act : Action) : Except Raised State :=
  match act with
  | .advance => do
    let n ← checkAddr (w.pc.toNat + opCount op + 1)
    return { w with pc := n }
  | .setPc t => .ok { w with pc := t }
  | .halt => .ok { w with status := .halted }

/-- What an instruction does to the working copy: the changed copy and a control action, or an error. -/
abbrev Effect := Except Raised (State × Action)

/-- The all-or-nothing commit of R76: the working copy becomes the state, or the error entry is made on the state as
it was. The opcode byte is the one the table gives the mnemonic (DEDUCED, log entry 7, safe: decoding is an exact
match, R62). -/
def transact (m : Mnemonic) (s : State) (r : Effect) : Host.Outcome State Fault Refusal :=
  let op := s.config.table.byteOf m
  match r with
  | .error e => .next (s.takeError op e)
  | .ok (w, act) =>
    match applyAction op w act with
    | .error e => .next (s.takeError op e)
    | .ok w' => .next w'

/-! ### The stack mechanism (`43_stack.md` R102, R103) -/

/-- Pushes what `value` gives on the copy whose SP is already incremented: increment SP, then write the cell at the new
SP (R103, R107; the order is decision D11, log entry 15). -/
def pushByte (s : State) (value : State → Byte) : Except Raised State := do
  let n ← checkAddr (s.sp.toNat + 1)
  let w := s.writeReg spIndex n
  memWrite w n.toNat (value w)

/-- Decrements SP, range checked (R104, R108). -/
def decrementSp (s : State) : Except Raised State := do
  let n ← checkAddr ((s.sp.toNat : Int) - 1)
  return s.writeReg spIndex n

end Sys2Proof.Machine
end

