-- ==== Sys2Proof/Machine/Flags.lean ====
section
/-! DEFINITION. The one flag computation of the machine: CMP's (`41_alu.md` R97). No other instruction writes a flag
(`10_state.md` R24), and no flag is ever read as part of a byte (R28). -/

namespace Sys2Proof.Machine

/-- The unsigned comparison of two values: exactly one of L, G, E is set (`41_alu.md` R97). -/
def compareFlags (va vb : Byte) : Flags where
  l := decide (va.toNat < vb.toNat)
  g := decide (va.toNat > vb.toNat)
  e := decide (va = vb)

/-- The flags are mutually exclusive (`10_state.md` R24): at most one is set (none before the first CMP, R27). -/
def Flags.exclusive (f : Flags) : Bool := !(f.l && f.g) && !(f.l && f.e) && !(f.g && f.e)

/-- Exactly one flag is set. -/
def Flags.exactlyOne (f : Flags) : Bool := f.exclusive && (f.l || f.g || f.e)

end Sys2Proof.Machine
end

