-- ==== Sys2Proof/Machine/Operands.lean ====
section
/-! DEFINITION. Operand forms: the register operand (`30_encoding.md` R57), and the fetch of operand bytes
(`40_execution_loop.md` R71). The immediate of LDI is its operand byte as it stands (R58). -/

namespace Sys2Proof.Machine

/-- Checks and resolves a register operand byte: 0 to 7 name R0 to R7, 8 to 255 raise RegisterOutOfRange with the byte
(`30_encoding.md` R57, `60_exceptions.md` R118). R7 is named like any other (D18, log entry 17). -/
def resolve (r : Byte) : Except Raised (Fin 8) :=
  if h : r.toNat < 8 then .ok ⟨r.toNat, h⟩ else .error (.registerOutOfRange r)

/-- The byte that names a register. -/
def regByte (r : Fin 8) : Byte := BitVec.ofNat 8 r.val

/-- Reads `n` bytes from `addr` up, in increasing address order (`40_execution_loop.md` R71). -/
def readBytes (s : State) (addr : Int) : Nat → Except Raised (List Byte)
  | 0 => .ok []
  | n + 1 => do
    let b ← memRead s addr
    let rest ← readBytes s (addr + 1) n
    return b :: rest

/-- How many operand bytes are fetched after an opcode byte (R71: `N` under ByCount, two under AlwaysTwo). -/
def fetchCount (c : Config) (op : Byte) : Nat :=
  match c.operandFetch with
  | .byCount => (decodeByte c.table op).count
  | .alwaysTwo => 2

/-- The operand bytes at `pc+1` and up (R71). -/
def fetchOperands (s : State) (op : Byte) : Except Raised (List Byte) :=
  readBytes s (s.pc.toNat + 1) (fetchCount s.config op)

end Sys2Proof.Machine
end

