-- ==== Sys2Proof/Machine/Alu.lean ====
section
/-! DEFINITION. simple_alu (`41_alu.md` R80, R81) and the 14 ALU instructions (R84 to R97). -/

namespace Sys2Proof.Machine

/-- The ALU's result (`41_alu.md` R81). -/
inductive AluResult
  | write (r : Byte)
  | flags (f : Flags)
  | domainError
  deriving DecidableEq, Repr

/-- A result computed on unbounded integers, reduced mod 256 before storage (`41_alu.md` R83). -/
def reduce (r : Int) : Byte := BitVec.ofInt 8 r

/-- `apply(sel, va, vb)`: a pure function of the operation and two values (`41_alu.md` R80, R81). The unary operations
ignore `vb`. Shift counts are not masked (R93, R94; the spec's decision D17, log entry 16). -/
def aluApply (op : AluOp) (va vb : Byte) : AluResult :=
  match op with
  | .add => .write (reduce ((va.toNat : Int) + vb.toNat))
  | .sub => .write (reduce ((va.toNat : Int) - vb.toNat))
  | .mul => .write (reduce ((va.toNat : Int) * vb.toNat))
  | .div => if vb.toNat = 0 then .domainError else .write (reduce (va.toNat / vb.toNat : Nat))
  | .mod =>
    if vb.toNat = 0 then .domainError
    else .write (reduce ((va.toNat : Int) - (va.toNat / vb.toNat : Nat) * vb.toNat))
  | .and => .write (va &&& vb)
  | .or => .write (va ||| vb)
  | .xor => .write (va ^^^ vb)
  | .not => .write (reduce (255 - (va.toNat : Int)))
  | .shl => .write (reduce (va.toNat * 2 ^ vb.toNat : Nat))
  | .shr => .write (reduce (va.toNat / 2 ^ vb.toNat : Nat))
  | .inc => .write (reduce ((va.toNat : Int) + 1))
  | .dec => .write (reduce ((va.toNat : Int) - 1))
  | .cmp => .flags (compareFlags va vb)

/-- The loop writes back what the ALU returns: the destination is the first operand's register (`41_alu.md` R82,
`40_execution_loop.md` R72); a domain error writes nothing (R87, R88). -/
def writeBack (s : State) (ra : Fin 8) (r : AluResult) : Except Raised State :=
  match r with
  | .write v => .ok (s.writeReg ra v)
  | .flags f => .ok { s with flags := f }
  | .domainError => .error .arithmeticDomain

/-- A binary ALU operation: operand byte 1 is checked and resolved, then operand byte 2 (`40_execution_loop.md` R72). -/
def aluBinary (op : AluOp) (a b : Byte) (s : State) : Effect := do
  let ra ← resolve a
  let rb ← resolve b
  let w ← writeBack s ra (aluApply op (s.readReg ra) (s.readReg rb))
  return (w, .advance)

/-- A unary ALU operation: only operand byte 1 is checked and resolved, and `vb` is unused (`40_execution_loop.md` R72;
the spec's decision D6, log entry 13). -/
def aluUnary (op : AluOp) (a : Byte) (s : State) : Effect := do
  let ra ← resolve a
  let w ← writeBack s ra (aluApply op (s.readReg ra) 0#8)
  return (w, .advance)

/-- ADD (R84). -/
def execAdd (a b : Byte) (s : State) : Host.Outcome State Fault Refusal :=
  transact .add s (aluBinary .add a b s)

/-- SUB (R85). -/
def execSub (a b : Byte) (s : State) : Host.Outcome State Fault Refusal :=
  transact .sub s (aluBinary .sub a b s)

/-- MUL (R86). -/
def execMul (a b : Byte) (s : State) : Host.Outcome State Fault Refusal :=
  transact .mul s (aluBinary .mul a b s)

/-- DIV (R87). -/
def execDiv (a b : Byte) (s : State) : Host.Outcome State Fault Refusal :=
  transact .div s (aluBinary .div a b s)

/-- MOD (R88). -/
def execMod (a b : Byte) (s : State) : Host.Outcome State Fault Refusal :=
  transact .mod s (aluBinary .mod a b s)

/-- AND (R89). -/
def execAnd (a b : Byte) (s : State) : Host.Outcome State Fault Refusal :=
  transact .and s (aluBinary .and a b s)

/-- OR (R90). -/
def execOr (a b : Byte) (s : State) : Host.Outcome State Fault Refusal :=
  transact .or s (aluBinary .or a b s)

/-- XOR (R91). -/
def execXor (a b : Byte) (s : State) : Host.Outcome State Fault Refusal :=
  transact .xor s (aluBinary .xor a b s)

/-- NOT (R92). -/
def execNot (a : Byte) (s : State) : Host.Outcome State Fault Refusal :=
  transact .not s (aluUnary .not a s)

/-- SHL (R93). -/
def execShl (a b : Byte) (s : State) : Host.Outcome State Fault Refusal :=
  transact .shl s (aluBinary .shl a b s)

/-- SHR (R94). -/
def execShr (a b : Byte) (s : State) : Host.Outcome State Fault Refusal :=
  transact .shr s (aluBinary .shr a b s)

/-- INC (R95). -/
def execInc (a : Byte) (s : State) : Host.Outcome State Fault Refusal :=
  transact .inc s (aluUnary .inc a s)

/-- DEC (R96). -/
def execDec (a : Byte) (s : State) : Host.Outcome State Fault Refusal :=
  transact .dec s (aluUnary .dec a s)

/-- CMP (R97). -/
def execCmp (a b : Byte) (s : State) : Host.Outcome State Fault Refusal :=
  transact .cmp s (aluBinary .cmp a b s)

end Sys2Proof.Machine
end

