-- ==== Sys2Proof/Machine/Control.lean ====
section
/-! DEFINITION. CALL, RET, JMP, JEQ and JNE (`44_control_transfer.md`). Each ends with SetPC: the loop does not advance
the PC. -/

namespace Sys2Proof.Machine

/-- CALL (R107): pushes `pc + 2`, then reads the target register, so CALL R7 jumps to the new SP (decision D11, log
entry 15). -/
def execCall (a : Byte) (s : State) : Host.Outcome State Fault Refusal :=
  transact .call s do
    let ra ← resolve a
    let ret ← checkAddr (s.pc.toNat + 2)
    let w ← pushByte s fun _ => ret
    return (w, .setPc (w.readReg ra))

/-- RET (R108): StackUnderflow at the sentinel under both policies (decision D4, log entry 11). -/
def execRet (s : State) : Host.Outcome State Fault Refusal :=
  transact .ret s do
    if s.sp = sentinel then
      .error .stackUnderflow
    else
      let t ← memRead s s.sp.toNat
      let w ← decrementSp s
      return (w, .setPc t)

/-- JMP (R109). -/
def execJmp (a : Byte) (s : State) : Host.Outcome State Fault Refusal :=
  transact .jmp s do
    let ra ← resolve a
    return (s, .setPc (s.readReg ra))

/-- A conditional jump: the register is checked whether or not the jump is taken (R106; decision D24, log entry 11);
not taken, it falls through to `pc + 2`. -/
def branchIf (taken : Bool) (a : Byte) (s : State) : Effect := do
  let ra ← resolve a
  if taken then
    return (s, .setPc (s.readReg ra))
  else
    let n ← checkAddr (s.pc.toNat + 2)
    return (s, .setPc n)

/-- JEQ (R110): taken iff FL.E is set. -/
def execJeq (a : Byte) (s : State) : Host.Outcome State Fault Refusal :=
  transact .jeq s (branchIf s.flags.e a s)

/-- JNE (R111): taken iff FL.E is clear. -/
def execJne (a : Byte) (s : State) : Host.Outcome State Fault Refusal :=
  transact .jne s (branchIf (!s.flags.e) a s)

end Sys2Proof.Machine
end

