-- ==== Sys2Proof/Machine/LoadPrintHalt.lean ====
section
/-! DEFINITION. LDI, PRN and HLT (`42_load_print_halt.md`). -/

namespace Sys2Proof.Machine

/-- LDI (R99): the immediate is operand byte 2, taken as it stands. -/
def execLdi (a imm : Byte) (s : State) : Host.Outcome State Fault Refusal :=
  transact .ldi s do
    let ra ← resolve a
    return (s.writeReg ra imm, .advance)

/-- PRN (R100): appends the register's value to the output. -/
def execPrn (a : Byte) (s : State) : Host.Outcome State Fault Refusal :=
  transact .prn s do
    let ra ← resolve a
    return ({ s with out := s.out ++ [s.readReg ra] }, .advance)

/-- HLT (R101): a normal halt, `error` unchanged, the PC kept. -/
def execHlt (s : State) : Host.Outcome State Fault Refusal :=
  transact .hlt s (.ok (s, .halt))

end Sys2Proof.Machine
end

