-- ==== Sys2Proof/Machine/Stack.lean ====
section
/-! DEFINITION. PUSH and POP (`43_stack.md`). -/

namespace Sys2Proof.Machine

/-- PUSH (R103): the register is read after SP is incremented, so PUSH R7 stores the new SP (decision D11, log entry
15). -/
def execPush (a : Byte) (s : State) : Host.Outcome State Fault Refusal :=
  transact .push s do
    let ra ← resolve a
    let w ← pushByte s fun w => w.readReg ra
    return (w, .advance)

/-- POP (R104, R105): at the sentinel, nothing or StackUnderflow, as `UNDERFLOW_POLICY` says; otherwise the register
is loaded and then SP is decremented, so POP R7 decrements the loaded value (decision D11, log entry 15). -/
def execPop (a : Byte) (s : State) : Host.Outcome State Fault Refusal :=
  transact .pop s do
    let ra ← resolve a
    if s.sp = sentinel then
      match s.config.underflowPolicy with
      | .fatal => .error .stackUnderflow
      | .silent => .ok (s, .advance)
    else
      let v ← memRead s s.sp.toNat
      let w ← decrementSp (s.writeReg ra v)
      return (w, .advance)

end Sys2Proof.Machine
end

