-- ==== Sys2Proof/Machine/Fetch.lean ====
section
/-! DEFINITION. Fetch and decode at the PC (`40_execution_loop.md` R69 to R71, R77), and placing bytes at the PC. -/

namespace Sys2Proof.Machine

/-- Why a fetch gives no instruction. -/
inductive FetchStop
  /-- An error raised at the opcode byte `op`. -/
  | raised (op : Byte) (e : Raised)
  /-- The configured table's count bits disagree with the instruction's format (`30_encoding.md` R61 rules this out). -/
  | tableUnfit
  deriving DecidableEq, Repr

/-- Fetches the opcode byte, raises UnsupportedOpcode before any operand byte is read (R70), fetches the operand bytes
(R71), and decodes. Bytes beyond the instruction's own are ignored (`30_encoding.md` R59). -/
def fetch (s : State) : Except FetchStop Instr :=
  let op := s.mem.read s.pc.toNat
  match (decodeByte s.config.table op).instr with
  | none => .error (.raised op .unsupportedOpcode)
  | some _ =>
    match fetchOperands s op with
    | .error e => .error (.raised op e)
    | .ok bytes =>
      match decode s.config.table (op :: bytes) with
      | .ok (i, _) => .ok i
      | .error _ => .error .tableUnfit

/-- The byte at `pc + k`, for the `k` that stay below address 256, as the decoder would see them. -/
def bytesAt (s : State) (k : Nat) : List Byte :=
  match k with
  | 0 => []
  | n + 1 => bytesAt s n ++ (if s.pc.toNat + n < 256 then [s.mem.read (s.pc.toNat + n)] else [])

/-- Places bytes from `pc` up, those that fit below address 256. -/
def placeAtPc (s : State) (bytes : List Byte) : State :=
  { s with mem := s.mem.writeAll s.pc.toNat (bytes.take (256 - s.pc.toNat)) }

end Sys2Proof.Machine
end

