-- ==== Sys2Proof/Machine/Step.lean ====
section
/-! DEFINITION. One transition of the execution loop: one whole instruction (`40_execution_loop.md` R68, R77). -/

namespace Sys2Proof.Machine

/-- The transition of R77. In Halted none exists (R68): the fault `halted` (log entry 3). -/
def step (s : State) : Host.Outcome State Fault Refusal :=
  match s.status with
  | .halted => .fault .halted
  | .running =>
    match fetch s with
    | .ok i => exec i s
    | .error (.raised op e) => .next (s.takeError op e)
    | .error .tableUnfit => .refused .opcodeTableUnfit

/-- `s` with the word's three bytes stored at `pc`, `pc + 1` and `pc + 2` (log entry 4). -/
def State.withFetchWord (s : State) (nbits w : Nat) : State := placeAtPc s (bytesOfWord nbits w)

end Sys2Proof.Machine
end

