-- ==== Sys2Proof/Machine/Load.lean ====
section
/-! DEFINITION. Boot (`70_reset_and_hazards.md` R132 to R135): construct, load exactly one image at address 0. The image
text of R133 is read by Machine/ImageText.lean. -/

namespace Sys2Proof.Machine

/-- Copies an image into memory from address 0 up; nothing else changes (R132). -/
def State.load (s : State) (img : List Byte) : State := { s with mem := s.mem.writeAll 0 img }

/-- A launch: a fresh machine with one image loaded. An image of more than 256 bytes is refused, and has no run (R134;
decision D15). A table that breaks `30_encoding.md` R61 is refused too (log entry 5). -/
def launch (c : Config) (img : List Byte) : Host.Outcome State Fault Refusal :=
  if c.table.ok then
    if img.length ≤ 256 then .next ((State.construct c).load img) else .refused .imageTooLong
  else .refused .opcodeTableUnfit

end Sys2Proof.Machine
end

