-- ==== Sys2Proof/Machine/ImageText.lean ====
section
/-! DEFINITION. The image text (`70_reset_and_hazards.md` R133, `30_encoding.md` R66). The loader itself is out of scope
(`00_scope.md` R5); this is the format that fixes which bytes reach memory. Text outside the format gives no bytes
(93 U13; log entry 19). -/

namespace Sys2Proof.Machine

/-- The lines of a text. -/
def splitLines : List Char → List (List Char)
  | [] => [[]]
  | c :: rest =>
    if c = '\n' then [] :: splitLines rest
    else
      match splitLines rest with
      | line :: lines => (c :: line) :: lines
      | [] => [[c]]

/-- Reads exactly `n` binary digits, the most significant first (R133), and gives the value and what follows. -/
def binaryDigits (n : Nat) (acc : Nat) (text : List Char) : Option (Nat × List Char) :=
  match n, text with
  | 0, rest => some (acc, rest)
  | k + 1, c :: rest =>
    if c = '0' then binaryDigits k (acc * 2) rest
    else if c = '1' then binaryDigits k (acc * 2 + 1) rest
    else none
  | _ + 1, [] => none

/-- After a literal only a comment may follow, with blanks before its `#`, or nothing. -/
def commentOrEnd (atEnd : Bool) : List Char → Bool
  | [] => atEnd
  | c :: rest => if c = '#' then true else if c = ' ' ∨ c = '\t' then commentOrEnd false rest else false

/-- One line: `some none` for a skipped line (blank, or `#` first), `some (some v)` for a byte, `none` for a line outside
the format. -/
def parseLine (line : List Char) : Option (Option Byte) :=
  match line with
  | [] => some none
  | c :: _ =>
    if c = '#' then some none
    else
      match binaryDigits 8 0 line with
      | some (v, rest) => if commentOrEnd true rest then some (some (BitVec.ofNat 8 v)) else none
      | none => none

/-- The bytes of the lines, in order. -/
def parseLines : List (List Char) → Option (List Byte)
  | [] => some []
  | line :: lines =>
    match parseLine line, parseLines lines with
    | some none, some bytes => some bytes
    | some (some v), some bytes => some (v :: bytes)
    | _, _ => none

/-- The image a text gives. -/
def parseImage (text : List Char) : Option (List Byte) := parseLines (splitLines text)

/-- A launch from image text. -/
def launchText (c : Config) (text : List Char) : Host.Outcome State Fault Refusal :=
  match parseImage text with
  | some img => launch c img
  | none => .refused .imageMalformed

end Sys2Proof.Machine
end

