-- ==== Sys2Proof/Machine/HostView.lean ====
section
/-! DEFINITION. What the host does with the core beside stepping it (`60_exceptions.md` R129): the step budget, the
rendered output, the trace view and the observation of an ended run. All but the budgeted run only read. -/

namespace Sys2Proof.Machine

/-- At most `fuel` transitions, stopping at Halted (`70_reset_and_hazards.md` R137). -/
def runFuel (fuel : Nat) (s : State) : Host.Outcome State Fault Refusal :=
  match fuel with
  | 0 => .next s
  | k + 1 =>
    match s.status with
    | .halted => .next s
    | .running =>
      match step s with
      | .next t => runFuel k t
      | .fault r => .fault r
      | .refused r => .refused r

/-! ### A run under `FUEL` (`00_scope.md` R10; log entry 26)

From a machine of this spec a run under a step budget ends or is cut by the budget; an unbounded run ends or goes on for
ever. -/

/-- Whether the host lets the core take `n` transitions. -/
def fuelAllows (f : Fuel) (n : Nat) : Prop :=
  match f with
  | .steps k => n ≤ k
  | .unbounded => True

/-- The run from `s` ends in `t`: Halted, within the transitions the host allows (R137). -/
def RunEnds (f : Fuel) (s t : State) : Prop := t.status = .halted ∧ ∃ n, fuelAllows f n ∧ runFuel n s = .next t

/-- The host's budget runs out in `t`, a Running state, which is not an end of the run (R129, R137). -/
def RunIsCut (f : Fuel) (s t : State) : Prop := t.status = .running ∧ ∃ n, f = .steps n ∧ runFuel n s = .next t

/-- The run is unbounded and never ends: Running after any number of transitions. -/
def RunGoesOn (f : Fuel) (s : State) : Prop :=
  f = .unbounded ∧ ∀ n, ∃ t, runFuel n s = .next t ∧ t.status = .running

/-- The output as the host prints it: each byte in decimal, no sign, no leading zeros, one text a line (R125, D19). The
line end is the host's (91 N22), so the lines are a list. -/
def renderedOutput (s : State) : List (List Char) := s.out.map fun b => Nat.toDigits 10 b.toNat

/-- The optional trace (R128, R129): the PC, three memory bytes and the registers. The spec does not say whether the
bytes start at PC or at PC+1 (91 N21), so the start is an argument (log entry 20); a byte past the top is absent. -/
structure TraceView where
  pc : Byte
  bytes : List (Option Byte)
  regs : Vector Byte 8
  deriving DecidableEq, Repr

/-- Where the trace's three bytes start. -/
inductive TraceStart
  | atPc
  | afterPc
  deriving DecidableEq, Repr

def TraceStart.offset : TraceStart → Nat
  | .atPc => 0
  | .afterPc => 1

/-- A memory cell, if the address exists. -/
def cellAt (s : State) (a : Nat) : Option Byte := if a < 256 then some (s.mem.read a) else none

def traceView (start : TraceStart) (s : State) : TraceView where
  pc := s.pc
  bytes := [0, 1, 2].map fun k => cellAt s (s.pc.toNat + start.offset + k)
  regs := s.regs

/-- What the host reads of an ended run (R129, `70_reset_and_hazards.md` R137, D23). -/
structure Observation where
  out : List Byte
  error : Option ErrorRecord
  regs : Vector Byte 8
  flags : Flags
  mem : Memory
  pc : Byte
  deriving DecidableEq, Repr

/-- The observation: only of a state that is Halted (R137). -/
def observe (s : State) : Option Observation :=
  match s.status with
  | .running => none
  | .halted =>
    some { out := s.out, error := s.error, regs := s.regs, flags := s.flags, mem := s.mem, pc := s.pc }

end Sys2Proof.Machine
end

