-- ==== Sys2Proof/Safety.lean ====
section
/-! DEFINITION. The terms claims use: the ends of a run (`70_reset_and_hazards.md` R137), and the invariant of the
machine, which every step keeps. -/

namespace Sys2Proof.Machine

/-- A run ends when the status is Halted (R137). -/
def State.ended (s : State) : Prop := s.status = .halted

/-- A normal end: HLT committed (R137). -/
def State.normalEnd (s : State) : Prop := s.status = .halted ∧ s.error = none

/-- An error end: a fatal condition was raised (R137). -/
def State.errorEnd (s : State) : Prop := s.status = .halted ∧ s.error ≠ none

/-- The detail a record of each kind carries (`60_exceptions.md` R113): the computed address, outside 0..255; the operand
byte, 8 to 255; or none. -/
def ErrorRecord.detailFits (e : ErrorRecord) : Prop :=
  match e.kind, e.detail with
  | .memoryOutOfRange, some n => n < 0 ∨ 255 < n
  | .registerOutOfRange, some n => 8 ≤ n ∧ n ≤ 255
  | .unsupportedOpcode, none => True
  | .arithmeticDomain, none => True
  | .stackUnderflow, none => True
  | _, _ => False

/-- The invariant of the machine. -/
structure Inv (s : State) : Prop where
  /-- Memory is in canonical form, inside 0..255. -/
  memCanonical : s.mem.wf = true
  /-- The configured opcode table meets `30_encoding.md` R61. -/
  tableOk : s.config.table.ok = true
  /-- The flags are mutually exclusive (`10_state.md` R24). -/
  flagsExclusive : s.flags.exclusive = true
  /-- An error record stands only in Halted (`10_state.md` R29). -/
  errorHalts : s.error ≠ none → s.status = .halted
  /-- The record names the address and opcode byte of the instruction at `pc`, and a detail that fits its kind
  (`60_exceptions.md` R113, R119). -/
  errorRecord : ∀ e, s.error = some e → e.pc = s.pc ∧ e.opcode = s.mem.read s.pc.toNat ∧ e.detailFits

/-- The machine has raised no error. -/
def Safe (s : State) : Prop := s.error = none

end Sys2Proof.Machine
end

