-- ==== Sys2Proof/Certificates/Slice0/Obligations.lean ====
section
/-! DEFINITION. The statements for the provers. A rule of spec/ that marks its own content as a decision or a derivation
is not cited as stated: such a statement has basis 'derived', and its docstring names the spec's decision (D numbers of
92_eei_decisions.md) or the log entry. -/

namespace Sys2Proof.Claims

open Sys2Proof.Machine

/-! ### Words the statements use -/

/-- The error entry of `60_exceptions.md` R119, written out. -/
def errorEntry (s : State) (op : Byte) (k : ErrorKind) (d : Option Int) : State :=
  { s with status := .halted, error := some { kind := k, pc := s.pc, opcode := op, detail := d } }

/-- Running the instruction raises kind `k` with detail `d`: the next state is the error entry, and nothing else. -/
def Raises (i : Instr) (s : State) (k : ErrorKind) (d : Option Int) : Prop :=
  exec i s = .next (errorEntry s (s.config.table.byteOf i.mnemonic) k d)

/-- The transition raises kind `k` with detail `d` at the opcode byte it fetched. -/
def StepRaises (s : State) (k : ErrorKind) (d : Option Int) : Prop :=
  step s = .next (errorEntry s (s.mem.read s.pc.toNat) k d)

/-- The byte at the PC is the opcode byte of `m`. -/
def At (s : State) (m : Mnemonic) : Prop := s.mem.read s.pc.toNat = s.config.table.byteOf m

/-- Every byte of memory reads as before. -/
def SameMemory (s t : State) : Prop := ∀ x : Nat, t.mem.read x = s.mem.read x

/-- Status and error are kept, or the instruction raised and `t` is the error entry. -/
def KeepsStatusOrRaises (i : Instr) (s t : State) : Prop :=
  (t.status = s.status ∧ t.error = s.error) ∨ ∃ k d, t = errorEntry s (s.config.table.byteOf i.mnemonic) k d

/-- The number of bytes the PC advances by (`41_alu.md` R83). -/
def aluLength (op : AluOp) : Nat :=
  match op with
  | .not | .inc | .dec => 2
  | .add | .sub | .mul | .div | .mod | .and | .or | .xor | .shl | .shr | .cmp => 3

/-- The result `r` each operation computes on unbounded integers (`41_alu.md` R83 to R96): none where the operation
writes no result (CMP, and a zero divisor). -/
def naturalResult (op : AluOp) (x y : Nat) : Option Int :=
  match op with
  | .add => some (x + y)
  | .sub => some (x - y)
  | .mul => some (x * y)
  | .div => if y = 0 then none else some (x / y)
  | .mod => if y = 0 then none else some (x % y)
  | .and => some (x &&& y : Nat)
  | .or => some (x ||| y : Nat)
  | .xor => some (x ^^^ y : Nat)
  | .not => some (255 - x)
  | .shl => some (x * 2 ^ y)
  | .shr => some (x / 2 ^ y)
  | .inc => some (x + 1)
  | .dec => some (x - 1)
  | .cmp => none

/-- An error an instruction raises: kind and detail. -/
abbrev Err := ErrorKind × Option Int

/-- Step 3 of `60_exceptions.md` R120: the first register operand that names no register. -/
def registerError (i : Instr) : Option Err :=
  (i.registerOperands.find? fun r => decide (8 ≤ r.toNat)).map fun r => (.registerOutOfRange, some (r.toNat : Int))

/-- The value of a register named by an operand byte below 8. -/
def operandValue (s : State) (r : Byte) : Nat := (s.readReg (Fin.ofNat 8 r.toNat)).toNat

/-- Step 4 of `60_exceptions.md` R120: the instruction's own checks, in the order of its pseudocode. -/
def ownError (i : Instr) (s : State) : Option Err :=
  match i with
  | .div _ b => if operandValue s b = 0 then some (.arithmeticDomain, none) else none
  | .mod _ b => if operandValue s b = 0 then some (.arithmeticDomain, none) else none
  | .push _ => if s.sp.toNat = 255 then some (.memoryOutOfRange, some 256) else none
  | .pop a =>
    if s.sp.toNat = 0xF4 then
      match s.config.underflowPolicy with
      | .fatal => some (.stackUnderflow, none)
      | .silent => none
    else if (if a.toNat = 7 then (s.mem.read s.sp.toNat).toNat else s.sp.toNat) = 0 then
      some (.memoryOutOfRange, some (-1))
    else none
  | .call _ =>
    if 255 < s.pc.toNat + 2 then some (.memoryOutOfRange, some (s.pc.toNat + 2))
    else if s.sp.toNat = 255 then some (.memoryOutOfRange, some 256)
    else none
  | .ret =>
    if s.sp.toNat = 0xF4 then some (.stackUnderflow, none)
    else if s.sp.toNat = 0 then some (.memoryOutOfRange, some (-1))
    else none
  | .jeq _ =>
    if s.flags.e = false ∧ 255 < s.pc.toNat + 2 then some (.memoryOutOfRange, some (s.pc.toNat + 2)) else none
  | .jne _ =>
    if s.flags.e = true ∧ 255 < s.pc.toNat + 2 then some (.memoryOutOfRange, some (s.pc.toNat + 2)) else none
  | .add _ _ | .sub _ _ | .mul _ _ | .and _ _ | .or _ _ | .xor _ _ | .not _ | .shl _ _ | .shr _ _ => none
  | .inc _ | .dec _ | .cmp _ _ | .ldi _ _ | .prn _ | .hlt | .jmp _ => none

/-- Step 5 of `60_exceptions.md` R120: the advance `pc + N + 1` of an instruction that neither sets the PC nor halts. -/
def advanceError (i : Instr) (s : State) : Option Err :=
  if i.mnemonic.setsPc = true ∨ i = .hlt then none
  else if 255 < s.pc.toNat + i.operands.length + 1 then
    some (.memoryOutOfRange, some (s.pc.toNat + i.operands.length + 1))
  else none

/-- The first error of steps 3 to 5 of `60_exceptions.md` R120. -/
def firstError (i : Instr) (s : State) : Option Err :=
  match registerError i with
  | some e => some e
  | none =>
    match ownError i s with
    | some e => some e
    | none => advanceError i s

/-- The byte `v` stands at the PC and is what the next step fetches as its opcode byte: the step runs what `v` and the
bytes after it decode to, or raises UnsupportedOpcode for `v`. -/
def NextOpcodeIs (t : State) (v : Byte) : Prop :=
  t.mem.read t.pc.toNat = v ∧
  (∀ (i : Instr) (rest : List Byte), decode t.config.table (v :: (bytesAt t 3).drop 1) = .ok (i, rest) →
    (t.config.operandFetch = .alwaysTwo → t.pc.toNat + 2 ≤ 255) → step t = exec i t) ∧
  ((∀ m, t.config.table.byteOf m ≠ v) → step t = .next (errorEntry t v .unsupportedOpcode none))

/-- The eight digits of a byte, the most significant first (`70_reset_and_hazards.md` R133). -/
def digits (v : Byte) : List Char := (List.range 8).map fun k => if v.getLsbD (7 - k) then '1' else '0'

/-- Lines joined into a text, a line end between them. -/
def joinLines : List (List Char) → List Char
  | [] => []
  | [line] => line
  | line :: lines => line ++ '\n' :: joinLines lines

/-- How many operand bytes the fetch reads after the opcode byte of `m` (`40_execution_loop.md` R71). -/
def operandBytesFetched (c : Config) (m : Mnemonic) : Nat :=
  match c.operandFetch with
  | .byCount => m.operandCount
  | .alwaysTwo => 2

/-- The computations that raise MemoryOutOfRange(n), each with its instruction and state (`60_exceptions.md` R113, R117):
the operand fetch, the advance, `SP + 1` in PUSH and CALL, `pc + 2` in CALL, JEQ and JNE, `SP - 1` in POP and RET. -/
def AddressLeavesMemory (s : State) (n : Int) : Prop :=
  (∃ m, At s m ∧ 255 < s.pc.toNat + operandBytesFetched s.config m ∧ n = 256) ∨
  (∃ m, At s m ∧ m.setsPc = false ∧ m ≠ .hlt ∧ 255 < s.pc.toNat + m.operandCount + 1 ∧
    n = s.pc.toNat + m.operandCount + 1) ∨
  ((At s .push ∨ At s .call) ∧ s.sp = 0xFF#8 ∧ n = 256) ∨
  ((At s .call ∨ (At s .jeq ∧ s.flags.e = false) ∨ (At s .jne ∧ s.flags.e = true)) ∧ 255 < s.pc.toNat + 2 ∧
    n = s.pc.toNat + 2) ∨
  (At s .ret ∧ s.sp = 0x00#8 ∧ n = -1) ∨
  (At s .pop ∧ s.sp ≠ 0xF4#8 ∧ n = -1 ∧
    if s.mem.read (s.pc.toNat + 1) = 7#8 then s.mem.read s.sp.toNat = 0#8 else s.sp = 0x00#8)

end Sys2Proof.Claims

open Sys2Proof Sys2Proof.Machine Sys2Proof.Claims

/-! ### Encoding -/

/-- Decoding the bytes of an instruction gives the instruction back, with every operand byte at every value, under every
opcode table that meets `30_encoding.md` R61, and leaves the bytes that follow. -/
def Obligations.DecodeOfEncodeIsInstruction : Prop :=
  ∀ (t : OpcodeTable) (i : Instr) (rest : List Byte), t.ok = true → decode t (encode t i ++ rest) = .ok (i, rest)

/-- What decodes is the encoding of what it decodes to: no byte is dropped, and no two encodings share a meaning. -/
def Obligations.DecodedBytesAreTheEncoding : Prop :=
  ∀ (t : OpcodeTable) (bytes rest : List Byte) (i : Instr), decode t bytes = .ok (i, rest) → bytes = encode t i ++ rest

/-- `30_encoding.md` R64: the length is `op[7:6] + 1` bytes, known from the opcode byte alone; the decoder takes exactly
those, whatever follows. -/
def Obligations.LengthIsKnownFromOpcodeByte : Prop :=
  ∀ (t : OpcodeTable) (op : Byte) (bytes rest : List Byte) (i : Instr), t.ok = true →
    decode t (op :: bytes) = .ok (i, rest) →
    (op :: bytes).length = (op.toNat / 64 + 1) + rest.length ∧
    ∀ more : List Byte, decode t ((op :: bytes).take (op.toNat / 64 + 1) ++ more) = .ok (i, more)

/-- A byte outside the table is rejected by name, whatever follows; a byte of the table decodes to its mnemonic as soon
as its operand bytes are there (exact match: the spec's decision D2). -/
def Obligations.DecodeIsExactMatchOfOpcodeByte : Prop :=
  ∀ (t : OpcodeTable) (op : Byte) (bytes : List Byte), t.ok = true →
    ((∀ m, t.byteOf m ≠ op) → decode t (op :: bytes) = .error (.unsupportedOpcode op)) ∧
    (∀ m, t.byteOf m = op → m.operandCount ≤ bytes.length →
      ∃ i rest, decode t (op :: bytes) = .ok (i, rest) ∧ i.mnemonic = m)

/-- Under every table that meets R61 a byte with `op[7:6] = 0b11`, or with both the ALU and the sets-PC bit, is in no
row; the default table meets R61 and leaves 232 bytes out (decisions D1 and D2). -/
def Obligations.UnsupportedBytesOfEveryTable : Prop :=
  (∀ (t : OpcodeTable) (op : Byte), t.ok = true →
    (192 ≤ op.toNat ∨ (op.getLsbD 5 = true ∧ op.getLsbD 4 = true)) → (decodeByte t op).instr = none) ∧
  OpcodeTable.default.ok = true ∧
  ((List.range 256).filter fun n => (decodeByte OpcodeTable.default (BitVec.ofNat 8 n)).instr = none).length = 232

/-- `30_encoding.md` R52: bit 5 says whether a byte of the table is an ALU opcode; then its low four bits select the ALU
operation, and the instruction is one of that operation. -/
def Obligations.LowBitsSelectTheAluOperation : Prop :=
  ∀ (t : OpcodeTable) (op : Byte) (m : Mnemonic), t.ok = true → (decodeByte t op).instr = some m →
    (decodeByte t op).isAlu = op.getLsbD 5 ∧
    (op.getLsbD 5 = true →
      (decodeByte t op).ident = op.extractLsb' 0 4 ∧
      ∃ o : AluOp, t.aluOf (op.extractLsb' 0 4) = some o ∧ ∀ i : Instr, i.mnemonic = m → ∃ a b, i = o.instr a b) ∧
    (op.getLsbD 5 = false → ∀ o : AluOp, o.mnemonic ≠ m)

/-- Words written out from the encodings of `30_encoding.md` R60, numbered as spec/opcode_table.json numbers them, decode
to the instructions they stand for (the byte values are the spec's decision D1). -/
def Obligations.WrittenOutWordsDecode : Prop :=
  decodeTableWord 24 0b000000010000000010100000 = some (.add 0#8 1#8) ∧
  decodeTableWord 16 0b0000001001100101 = some (.inc 2#8) ∧
  decodeTableWord 24 0b110010000000000010000010 = some (.ldi 0#8 200#8) ∧
  decodeTableWord 8 0b00000001 = some .hlt ∧
  decodeTableWord 16 0b0000011101000101 = some (.push 7#8) ∧
  decodeTableWord 16 0b0000001101010101 = some (.jeq 3#8) ∧
  decodeTableWord 8 0b00000000 = none

/-! ### The transition -/

/-- When the bytes at the PC decode to an instruction, the step is its meaning at that state: the step adds nothing
around it. Under AlwaysTwo the fetch of both following bytes must stay in memory too (D7). -/
def Obligations.StepRunsDecodedInstruction : Prop :=
  ∀ (s : State) (i : Instr) (rest : List Byte), s.status = .running → s.config.table.ok = true →
    decode s.config.table (bytesAt s 3) = .ok (i, rest) →
    (s.config.operandFetch = .alwaysTwo → s.pc.toNat + 2 ≤ 255) → step s = exec i s

/-- `60_exceptions.md` R114: a fetched byte that is not in the table raises UnsupportedOpcode with the PC and the byte;
no operand byte is fetched, so it does so even at the top of memory. -/
def Obligations.UnsupportedOpcodeIsFatal : Prop :=
  ∀ s : State, s.status = .running → (∀ m, s.config.table.byteOf m ≠ s.mem.read s.pc.toNat) →
    StepRaises s .unsupportedOpcode none

/-- An operand fetch past address 255 raises MemoryOutOfRange(256), before any operand byte is looked at: with the
operand count under ByCount, with two bytes under AlwaysTwo (decisions D5, D7, D14). -/
def Obligations.OperandFetchPastMemoryRaises : Prop :=
  ∀ (s : State) (m : Mnemonic), s.status = .running → s.config.table.ok = true → At s m →
    255 < s.pc.toNat + (match s.config.operandFetch with
      | .byCount => m.operandCount
      | .alwaysTwo => 2) →
    StepRaises s .memoryOutOfRange (some 256)

/-- `40_execution_loop.md` R68: a transition exists only from Running, and one transition executes exactly one whole
instruction, the one fetched at the PC, or makes the error entry of the fetch that failed. In Halted none exists; that
`step` then answers the fault `halted` is the model's form of it (log entry 3, DEDUCED). -/
def Obligations.TransitionsExistOnlyFromRunning : Prop :=
  ∀ s : State, s.config.table.ok = true →
    (s.status = .running ↔ ∃ t, step s = .next t) ∧
    (s.status = .halted → step s = .fault .halted) ∧
    ∀ t, step s = .next t →
      (∃ i, fetch s = .ok i ∧ At s i.mnemonic ∧ exec i s = .next t) ∨
      (∃ e, fetch s = .error (.raised (s.mem.read s.pc.toNat) e) ∧
        t = errorEntry s (s.mem.read s.pc.toNat) e.kind e.detail)

/-- Every instruction's meaning answers a next state, in every state: none of them stops. -/
def Obligations.EveryInstructionAnswersNext : Prop :=
  ∀ (i : Instr) (s : State), ∃ t, exec i s = .next t

/-! ### The invariant -/

/-- Every step keeps the machine's invariant: canonical memory, a legal opcode table, mutually exclusive flags, an error
record only in Halted and naming the instruction at the PC. -/
def Obligations.StepKeepsInvariant : Prop :=
  ∀ s t : State, Inv s → step s = .next t → Inv t

/-- The reset state meets the invariant. -/
def Obligations.ResetMeetsInvariant : Prop := Inv State.reset

/-- A budgeted run from a state that meets the invariant never stops in a fault or a refusal, and what it leaves meets
the invariant. -/
def Obligations.BudgetedRunNeverStops : Prop :=
  ∀ (k : Nat) (s : State), Inv s → ∃ t, runFuel k s = .next t ∧ Inv t

/-- Once a run has ended, a larger budget changes nothing: Halted is final. -/
def Obligations.EndedRunStaysAsItIs : Prop :=
  ∀ (j k : Nat) (s t : State), runFuel k s = .next t → t.status = .halted → runFuel (k + j) s = .next t

/-! ### Whole-machine rules -/

/-- A transition that leaves an error record changed nothing else of the state but the status, and the record names the
PC and the opcode byte at it (the all-or-nothing commit; decisions D8, D13, D20). -/
def Obligations.ErrorEntryCommitsNothingElse : Prop :=
  ∀ s t : State, s.error = none → step s = .next t → t.error ≠ none →
    ∃ k d, t = errorEntry s (s.mem.read s.pc.toNat) k d

/-- An error record is written at most once in a run: a machine that holds one takes no further step (decision D13). -/
def Obligations.ErrorIsWrittenAtMostOnce : Prop :=
  ∀ s : State, Inv s →
    (s.error ≠ none → step s = .fault .halted) ∧ (∀ t, step s = .next t → s.error = none)

/-- `10_state.md` R24: CMP is the only instruction that writes the flags, and it sets exactly one of them. -/
def Obligations.OnlyCmpWritesFlags : Prop :=
  (∀ (i : Instr) (s t : State), exec i s = .next t → t.flags ≠ s.flags → ∃ a b, i = .cmp a b) ∧
  (∀ s t : State, step s = .next t → t.flags ≠ s.flags → At s .cmp) ∧
  (∀ (ra rb : Fin 8) (s : State), s.config.table.ok = true → s.pc.toNat + 3 ≤ 255 →
    ∃ t, exec (.cmp (regByte ra) (regByte rb)) s = .next t ∧
      ((t.flags.l = true ∧ t.flags.g = false ∧ t.flags.e = false) ∨
       (t.flags.l = false ∧ t.flags.g = true ∧ t.flags.e = false) ∨
       (t.flags.l = false ∧ t.flags.g = false ∧ t.flags.e = true)))

/-- `10_state.md` R25: JEQ and JNE read FL.E, and no instruction reads FL.L or FL.G: two states that differ only in L and
G step alike in everything but L and G. -/
def Obligations.FlagsLAndGAreNeverRead : Prop :=
  (∀ (ra : Fin 8) (s : State), s.config.table.ok = true → s.pc.toNat + 2 ≤ 255 →
    exec (.jeq (regByte ra)) s = .next { s with pc := if s.flags.e = true then s.readReg ra else s.pc + 2#8 } ∧
    exec (.jne (regByte ra)) s = .next { s with pc := if s.flags.e = false then s.readReg ra else s.pc + 2#8 }) ∧
  (∀ (s t : State) (l g : Bool), step s = .next t →
    ∃ f, step { s with flags := { l := l, g := g, e := s.flags.e } } = .next { t with flags := f } ∧
      (f = t.flags ∨ f = { l := l, g := g, e := t.flags.e }))

/-- `10_state.md` R31: the output starts empty, and only PRN changes it, by appending one byte. -/
def Obligations.OnlyPrnAppendsOneByteToOutput : Prop :=
  State.reset.out = [] ∧
  (∀ s t : State, step s = .next t → t.out = s.out ∨ (At s .prn ∧ ∃ v : Byte, t.out = s.out ++ [v])) ∧
  (∀ (ra : Fin 8) (s : State), s.config.table.ok = true → s.pc.toNat + 2 ≤ 255 →
    exec (.prn (regByte ra)) s = .next { s with out := s.out ++ [s.readReg ra], pc := s.pc + 2#8 })

/-- A step changes memory only when it runs PUSH or CALL, and then only the one byte at the new SP. -/
def Obligations.OnlyPushAndCallStoreOneByte : Prop :=
  ∀ s t : State, s.mem.wf = true → step s = .next t →
    SameMemory s t ∨
    ((At s .push ∨ At s .call) ∧ s.sp.toNat + 1 ≤ 255 ∧ t.sp.toNat = s.sp.toNat + 1 ∧
      ∀ x : Nat, x ≠ s.sp.toNat + 1 → t.mem.read x = s.mem.read x)

/-- What a step does depends on no byte of memory but those at the PC and the two after it, and the one at SP: two
memories that agree there step alike, and stay as different as they were elsewhere. -/
def Obligations.StepReadsOnlyFetchedAndStackBytes : Prop :=
  ∀ (s t : State) (m : Memory), s.config.table.ok = true → s.mem.wf = true → m.wf = true →
    (∀ k : Nat, k ≤ 2 → m.read (s.pc.toNat + k) = s.mem.read (s.pc.toNat + k)) →
    m.read s.sp.toNat = s.mem.read s.sp.toNat → step s = .next t →
    ∃ n : Memory, step { s with mem := m } = .next { t with mem := n } ∧
      ∀ x : Nat, m.read x = s.mem.read x → n.read x = t.mem.read x

/-- No step changes the configuration the machine was constructed with (log entry 1). -/
def Obligations.ConfigurationNeverChanges : Prop :=
  ∀ s t : State, step s = .next t → t.config = s.config

/-- Running leaves only by HLT, which changes nothing but the status, or by an error. -/
def Obligations.OnlyHltOrAnErrorHalts : Prop :=
  ∀ s t : State, s.error = none → step s = .next t → t.status = .halted →
    (At s .hlt ∧ t = { s with status := .halted }) ∨ t.error ≠ none

/-- Bits 7–6 are the operand count, 3 has no instruction, and an instruction that does not set the PC moves it on by the
count and one (`30_encoding.md` R51); that the sum is never wrapped is the spec's decision D5 and D21 (log entry 12,
DESIGN CHOICE). -/
def Obligations.PcAdvancesByOperandCountPlusOne : Prop :=
  (∀ (t : OpcodeTable) (op : Byte), (decodeByte t op).count = op.toNat / 64) ∧
  (∀ (t : OpcodeTable) (op : Byte), t.ok = true → (decodeByte t op).count = 3 → (decodeByte t op).instr = none) ∧
  (∀ (t : OpcodeTable) (op : Byte) (m : Mnemonic), t.ok = true → (decodeByte t op).instr = some m →
    (decodeByte t op).count = m.operandCount) ∧
  (∀ s t : State, s.config.table.ok = true → step s = .next t → t.status = .running →
    (s.mem.read s.pc.toNat).getLsbD 4 = false →
    t.pc.toNat = s.pc.toNat + (s.mem.read s.pc.toNat).toNat / 64 + 1)

/-- The next PC comes from one of the sources the spec lists: the sequential advance, a target register (of CALL, JMP, or
a taken JEQ or JNE), the fall-through of a JEQ or JNE not taken, the byte RET pops, or the PC itself (HLT, an error). -/
def Obligations.NextPcComesFromListedSources : Prop :=
  ∀ s t : State, s.config.table.ok = true → step s = .next t →
    (t.status = .running ∧ t.pc.toNat = s.pc.toNat + (s.mem.read s.pc.toNat).toNat / 64 + 1 ∧
      (s.mem.read s.pc.toNat).getLsbD 4 = false) ∨
    ((At s .call ∨ At s .jmp ∨ (At s .jeq ∧ s.flags.e = true) ∨ (At s .jne ∧ s.flags.e = false)) ∧
      ∃ r : Fin 8, s.mem.read (s.pc.toNat + 1) = regByte r ∧ t.pc = t.readReg r) ∨
    (((At s .jeq ∧ s.flags.e = false) ∨ (At s .jne ∧ s.flags.e = true)) ∧ t.pc.toNat = s.pc.toNat + 2) ∨
    (At s .ret ∧ t.pc = s.mem.read s.sp.toNat) ∨
    (t.status = .halted ∧ t.pc = s.pc)

/-- The address a MemoryOutOfRange error records is 256 or -1: a carry out of 8 bits, or the borrow of SP - 1 (decisions
D5, D12, D21). -/
def Obligations.OutOfRangeAddressIs256OrMinusOne : Prop :=
  ∀ (s t : State) (e : ErrorRecord), s.config.table.ok = true → s.error = none → step s = .next t → t.error = some e →
    e.kind = .memoryOutOfRange → e.detail = some 256 ∨ e.detail = some (-1)

/-- Each error kind is raised only by the instructions the spec lists for it, in the states it names: an unsupported byte; a
zero divisor of DIV or MOD; an empty stack of RET, or of POP under Fatal; an address computation that leaves memory; a
register operand byte of the decoded instruction (decisions D2 to D5, D13, D21; log entries 10, 11, 12). -/
def Obligations.ErrorKindsComeFromTheirInstructions : Prop :=
  ∀ (s t : State) (e : ErrorRecord), s.config.table.ok = true → s.error = none → step s = .next t → t.error = some e →
    match e.kind with
    | .unsupportedOpcode => e.detail = none ∧ ∀ m, ¬ At s m
    | .arithmeticDomain =>
      e.detail = none ∧ (At s .div ∨ At s .mod) ∧
      ∃ ra rb : Fin 8, s.mem.read (s.pc.toNat + 1) = regByte ra ∧ s.mem.read (s.pc.toNat + 2) = regByte rb ∧
        (s.readReg rb).toNat = 0
    | .stackUnderflow =>
      e.detail = none ∧ s.sp = 0xF4#8 ∧ (At s .ret ∨ (At s .pop ∧ s.config.underflowPolicy = .fatal))
    | .memoryOutOfRange => ∃ n, e.detail = some n ∧ (n < 0 ∨ 255 < n) ∧ AddressLeavesMemory s n
    | .registerOutOfRange =>
      ∃ (r : Byte) (i : Instr) (rest : List Byte), decode s.config.table (bytesAt s 3) = .ok (i, rest) ∧
        r ∈ i.registerOperands ∧ 8 ≤ r.toNat ∧ e.detail = some (r.toNat : Int)

/-- The order of the checks of one instruction: register operands, then its own checks, then the advance. It raises the
first that fails, and with none it commits without an error (decisions D5, D14, D21, D24). -/
def Obligations.FirstFailingCheckIsRaised : Prop :=
  ∀ (i : Instr) (s : State), s.config.table.ok = true →
    match firstError i s with
    | some (k, d) => Raises i s k d
    | none => ∃ t, exec i s = .next t ∧ t.error = s.error

/-- A register operand is the whole byte; 0 to 7 name R0 to R7, and 8 to 255 raise RegisterOutOfRange with the byte when the
instruction runs; decoding never checks it (`30_encoding.md` R57). That operand byte 1 comes first, that the check comes
before the instruction's own (D14, log entry 21) and on every path (D24, log entry 11), and that a unary operation's next
byte is not checked (D6, log entry 13) are decisions of the spec. -/
def Obligations.RegisterOperandByteIsTheIndex : Prop :=
  (∀ r : Fin 8, resolve (regByte r) = .ok r ∧ (regByte r).toNat = r.val) ∧
  (∀ a : Byte, a.toNat < 8 → ∃ r : Fin 8, a = regByte r) ∧
  (∀ (i : Instr) (s : State) (r : Byte),
    (i.registerOperands.find? fun b => decide (8 ≤ b.toNat)) = some r →
    Raises i s .registerOutOfRange (some r.toNat)) ∧
  (∀ (t : OpcodeTable) (m : Mnemonic) (bytes : List Byte), t.ok = true → m.operandCount ≤ bytes.length →
    ∃ i rest, decode t (t.byteOf m :: bytes) = .ok (i, rest))

/-! ### Instructions: results, completion, frames -/

/-- Each ALU operation that writes computes on unbounded integers, stores the result mod 256 in the first operand's
register, changes nothing else, and moves the PC on by 3 or 2; CMP writes only flags and moves it on by 3; no other ALU
operation ever changes a flag (`41_alu.md` R83). That SHL and SHR take the whole register as their count is the spec's
decision D17 (log entry 16, DESIGN CHOICE). -/
def Obligations.AluResultsReducedMod256 : Prop :=
  (∀ (op : AluOp) (ra rb : Fin 8) (s : State) (r : Int), s.config.table.ok = true →
    s.pc.toNat + aluLength op ≤ 255 → naturalResult op (s.readReg ra).toNat (s.readReg rb).toNat = some r →
    ∃ v : Byte, (v.toNat : Int) = r % 256 ∧
      exec (op.instr (regByte ra) (regByte rb)) s =
        .next { s.writeReg ra v with pc := s.pc + BitVec.ofNat 8 (aluLength op) }) ∧
  (∀ (ra rb : Fin 8) (s : State), s.config.table.ok = true → s.pc.toNat + 3 ≤ 255 →
    ∃ f, exec (.cmp (regByte ra) (regByte rb)) s = .next { s with flags := f, pc := s.pc + 3#8 }) ∧
  (∀ (op : AluOp) (a b : Byte) (s t : State), op ≠ .cmp → exec (op.instr a b) s = .next t → t.flags = s.flags)

/-- The frame of the 14 ALU instructions: no register but operand byte 1's (none for CMP), no flag but for CMP, no
memory, output or configuration changes; status and error change only by an error entry. -/
def Obligations.AluFrame : Prop :=
  ∀ (op : AluOp) (a b : Byte) (s t : State), exec (op.instr a b) s = .next t →
    (∀ q : Fin 8, (op = .cmp ∨ regByte q ≠ a) → t.readReg q = s.readReg q) ∧
    (op ≠ .cmp → t.flags = s.flags) ∧ SameMemory s t ∧ t.out = s.out ∧ t.config = s.config ∧
    KeepsStatusOrRaises (op.instr a b) s t

/-- CMP orders the two register values as unsigned numbers, sets that flag and clears the others, and writes no
register. -/
def Obligations.CmpOrdersUnsignedValues : Prop :=
  ∀ (ra rb : Fin 8) (s : State), s.config.table.ok = true → s.pc.toNat + 3 ≤ 255 →
    exec (.cmp (regByte ra) (regByte rb)) s =
      .next { s with
        flags := { l := decide ((s.readReg ra).toNat < (s.readReg rb).toNat)
                   g := decide ((s.readReg rb).toNat < (s.readReg ra).toNat)
                   e := decide ((s.readReg ra).toNat = (s.readReg rb).toNat) }
        pc := s.pc + 3#8 }

/-- `60_exceptions.md` R115: DIV and MOD whose second operand's value is 0 raise ArithmeticDomain and write no register
(where the advance would fail too, FirstFailingCheckIsRaised says which error is recorded). -/
def Obligations.ZeroDivisorWritesNothing : Prop :=
  ∀ (ra rb : Fin 8) (s : State), s.pc.toNat + 3 ≤ 255 → (s.readReg rb).toNat = 0 →
    Raises (.div (regByte ra) (regByte rb)) s .arithmeticDomain none ∧
    Raises (.mod (regByte ra) (regByte rb)) s .arithmeticDomain none

/-- DIV and MOD of the same operands give quotient and remainder: `q * y + r = x` with `r < y`. -/
def Obligations.QuotientAndRemainderAgree : Prop :=
  ∀ (ra rb : Fin 8) (s : State), s.config.table.ok = true → s.pc.toNat + 3 ≤ 255 → (s.readReg rb).toNat ≠ 0 →
    ∃ q r, exec (.div (regByte ra) (regByte rb)) s = .next q ∧ exec (.mod (regByte ra) (regByte rb)) s = .next r ∧
      (q.readReg ra).toNat * (s.readReg rb).toNat + (r.readReg ra).toNat = (s.readReg ra).toNat ∧
      (r.readReg ra).toNat < (s.readReg rb).toNat

/-- A shift by 8 or more gives 0: the count is the whole register and is not masked (the spec's decision D17). -/
def Obligations.ShiftByEightOrMoreGivesZero : Prop :=
  ∀ (ra rb : Fin 8) (s : State), s.config.table.ok = true → s.pc.toNat + 3 ≤ 255 → 8 ≤ (s.readReg rb).toNat →
    exec (.shl (regByte ra) (regByte rb)) s = .next { s.writeReg ra 0#8 with pc := s.pc + 3#8 } ∧
    exec (.shr (regByte ra) (regByte rb)) s = .next { s.writeReg ra 0#8 with pc := s.pc + 3#8 }

/-- `30_encoding.md` R58: LDI's immediate is operand byte 2, taken as it stands; no other instruction has one. -/
def Obligations.LdiWritesImmediateVerbatim : Prop :=
  (∀ (ra : Fin 8) (imm : Byte) (s : State), s.config.table.ok = true → s.pc.toNat + 3 ≤ 255 →
    exec (.ldi (regByte ra) imm) s = .next { s.writeReg ra imm with pc := s.pc + 3#8 }) ∧
  (∀ m : Mnemonic, m.format = .f2ri ↔ m = .ldi)

/-- HLT ends Running with no error and keeps the PC, at every address (decision D8). -/
def Obligations.HltHaltsAndKeepsPc : Prop :=
  ∀ s : State, exec .hlt s = .next { s with status := .halted }

/-- The frame of LDI, PRN and HLT: LDI changes no register but operand byte 1's, the others none; no flag, no memory and
no configuration changes; only PRN changes the output. -/
def Obligations.LoadPrintHaltFrame : Prop :=
  (∀ (a imm : Byte) (s t : State), exec (.ldi a imm) s = .next t →
    (∀ q : Fin 8, regByte q ≠ a → t.readReg q = s.readReg q) ∧ t.flags = s.flags ∧ SameMemory s t ∧ t.out = s.out ∧
    t.config = s.config ∧ KeepsStatusOrRaises (.ldi a imm) s t) ∧
  (∀ (a : Byte) (s t : State), exec (.prn a) s = .next t →
    (∀ q : Fin 8, t.readReg q = s.readReg q) ∧ t.flags = s.flags ∧ SameMemory s t ∧ t.config = s.config ∧
    KeepsStatusOrRaises (.prn a) s t ∧ (t.out = s.out ∨ t.out = s.out ++ [t.readReg (Fin.ofNat 8 a.toNat)])) ∧
  (∀ s t : State, exec .hlt s = .next t →
    (∀ q : Fin 8, t.readReg q = s.readReg q) ∧ t.flags = s.flags ∧ SameMemory s t ∧ t.out = s.out ∧
    t.config = s.config ∧ t.error = s.error ∧ t.pc = s.pc)

/-- PUSH increments SP and stores the register at the new SP; PUSH R7 stores the new SP (decisions D5, D11). -/
def Obligations.PushStoresAtIncrementedSp : Prop :=
  ∀ (ra : Fin 8) (s : State), s.config.table.ok = true → s.pc.toNat + 2 ≤ 255 → s.sp.toNat + 1 ≤ 255 →
    exec (.push (regByte ra)) s =
      .next { s.writeReg spIndex (s.sp + 1#8) with
        mem := s.mem.write (s.sp.toNat + 1) (if ra = spIndex then s.sp + 1#8 else s.readReg ra)
        pc := s.pc + 2#8 }

/-- POP off the sentinel loads the byte at SP into the register and then decrements SP; POP R7 decrements the byte it
loaded (decisions D5, D11). -/
def Obligations.PopLoadsThenDecrementsSp : Prop :=
  ∀ (ra : Fin 8) (s : State), s.config.table.ok = true → s.pc.toNat + 2 ≤ 255 → s.sp ≠ 0xF4#8 →
    (ra ≠ spIndex → 0 < s.sp.toNat →
      exec (.pop (regByte ra)) s =
        .next { (s.writeReg ra (s.mem.read s.sp.toNat)).writeReg spIndex (s.sp - 1#8) with pc := s.pc + 2#8 }) ∧
    (0 < (s.mem.read s.sp.toNat).toNat →
      exec (.pop (regByte spIndex)) s =
        .next { s.writeReg spIndex (s.mem.read s.sp.toNat - 1#8) with pc := s.pc + 2#8 })

/-- POP at the sentinel: under Silent nothing changes but the PC, under Fatal it raises StackUnderflow (decision D3). -/
def Obligations.PopAtSentinelFollowsPolicy : Prop :=
  ∀ (ra : Fin 8) (s : State), s.config.table.ok = true → s.sp = 0xF4#8 →
    (s.config.underflowPolicy = .silent → s.pc.toNat + 2 ≤ 255 →
      exec (.pop (regByte ra)) s = .next { s with pc := s.pc + 2#8 }) ∧
    (s.config.underflowPolicy = .fatal → Raises (.pop (regByte ra)) s .stackUnderflow none)

/-- PUSH, CALL, POP and RET never wrap SP: PUSH and CALL with SP 0xFF raise MemoryOutOfRange(256), POP and RET with SP 0
raise MemoryOutOfRange(-1), and so does POP R7 that loads 0 (decisions D5, D11, D14; log entries 12, 15, 21). An ALU
operation on R7 is reduced mod 256 like any other. -/
def Obligations.StackInstructionsNeverWrapSp : Prop :=
  ∀ (ra : Fin 8) (s : State),
    (s.sp = 0xFF#8 → Raises (.push (regByte ra)) s .memoryOutOfRange (some 256)) ∧
    (s.sp = 0xFF#8 → s.pc.toNat + 2 ≤ 255 → Raises (.call (regByte ra)) s .memoryOutOfRange (some 256)) ∧
    (s.sp = 0x00#8 → ra ≠ spIndex → Raises (.pop (regByte ra)) s .memoryOutOfRange (some (-1))) ∧
    (s.sp = 0x00#8 → Raises .ret s .memoryOutOfRange (some (-1))) ∧
    (s.sp ≠ 0xF4#8 → s.mem.read s.sp.toNat = 0#8 →
      Raises (.pop (regByte spIndex)) s .memoryOutOfRange (some (-1)))

/-- CALL pushes `pc + 2` and jumps to its register, read after the push, so CALL R7 jumps to the new SP (decisions D5,
D11). -/
def Obligations.CallPushesReturnAddressAndJumps : Prop :=
  ∀ (ra : Fin 8) (s : State), s.pc.toNat + 2 ≤ 255 → s.sp.toNat + 1 ≤ 255 →
    exec (.call (regByte ra)) s =
      .next { s.writeReg spIndex (s.sp + 1#8) with
        mem := s.mem.write (s.sp.toNat + 1) (s.pc + 2#8)
        pc := if ra = spIndex then s.sp + 1#8 else s.readReg ra }

/-- RET pops the byte at SP into the PC; at the sentinel it raises StackUnderflow under both policies (decisions D4,
D5). -/
def Obligations.RetPopsIntoPcOrUnderflows : Prop :=
  ∀ s : State,
    (s.sp ≠ 0xF4#8 → 0 < s.sp.toNat →
      exec .ret s = .next { s.writeReg spIndex (s.sp - 1#8) with pc := s.mem.read s.sp.toNat }) ∧
    (s.sp = 0xF4#8 → Raises .ret s .stackUnderflow none)

/-- The frame of the stack instructions PUSH, POP, CALL and RET: no register changes but SP and POP's destination; no
flag, output or configuration changes; PUSH and CALL store one byte at SP + 1, the address their meaning stores to, and
POP and RET store nothing. -/
def Obligations.StackFrame : Prop :=
  ∀ (i : Instr) (s t : State), ((∃ a, i = .push a ∨ i = .pop a ∨ i = .call a) ∨ i = .ret) → s.mem.wf = true →
    exec i s = .next t →
    (∀ q : Fin 8, q ≠ spIndex → (∀ a, i = .pop a → regByte q ≠ a) → t.readReg q = s.readReg q) ∧
    t.flags = s.flags ∧ t.out = s.out ∧ t.config = s.config ∧ KeepsStatusOrRaises i s t ∧
    (∀ x : Nat, ((∃ a, i = .push a ∨ i = .call a) → x ≠ s.sp.toNat + 1) → t.mem.read x = s.mem.read x)

/-- JMP sets the PC to the register's value, from every address its operand can be fetched at; nothing else changes. -/
def Obligations.JmpSetsPcToRegister : Prop :=
  ∀ (ra : Fin 8) (s : State), exec (.jmp (regByte ra)) s = .next { s with pc := s.readReg ra }

/-- JEQ is taken iff FL.E is set, from any address; not taken, it falls through to `pc + 2`, or raises when that is past
255 (decision D21). -/
def Obligations.JeqTakenIffEqualFlagSet : Prop :=
  ∀ (ra : Fin 8) (s : State),
    (s.flags.e = true → exec (.jeq (regByte ra)) s = .next { s with pc := s.readReg ra }) ∧
    (s.flags.e = false → s.pc.toNat + 2 ≤ 255 → exec (.jeq (regByte ra)) s = .next { s with pc := s.pc + 2#8 }) ∧
    (s.flags.e = false → 255 < s.pc.toNat + 2 →
      Raises (.jeq (regByte ra)) s .memoryOutOfRange (some (s.pc.toNat + 2)))

/-- JNE is taken iff FL.E is clear, from any address; not taken, it falls through to `pc + 2`, or raises when that is past
255 (decision D21). -/
def Obligations.JneTakenIffEqualFlagClear : Prop :=
  ∀ (ra : Fin 8) (s : State),
    (s.flags.e = false → exec (.jne (regByte ra)) s = .next { s with pc := s.readReg ra }) ∧
    (s.flags.e = true → s.pc.toNat + 2 ≤ 255 → exec (.jne (regByte ra)) s = .next { s with pc := s.pc + 2#8 }) ∧
    (s.flags.e = true → 255 < s.pc.toNat + 2 →
      Raises (.jne (regByte ra)) s .memoryOutOfRange (some (s.pc.toNat + 2)))

/-- The frame of JMP, JEQ and JNE: nothing but the PC changes, or it is an error entry; every byte of memory, register and
flag is as before. -/
def Obligations.JumpFrame : Prop :=
  ∀ (i : Instr) (s t : State), (∃ a, i = .jmp a ∨ i = .jeq a ∨ i = .jne a) → exec i s = .next t →
    (∀ q : Fin 8, t.readReg q = s.readReg q) ∧ t.flags = s.flags ∧ SameMemory s t ∧ t.out = s.out ∧
    t.config = s.config ∧ KeepsStatusOrRaises i s t

/-! ### Sequences -/

/-- PUSH then POP gives the value back and restores SP, below the top of memory and unless the push lands on the
sentinel address 0xF4, where POP sees an empty stack (R7 as the operand: PushStoresAtIncrementedSp and
PopLoadsThenDecrementsSp). -/
def Obligations.PushThenPopRestoresValueAndSp : Prop :=
  ∀ (ra rb : Fin 8) (s : State), s.config.table.ok = true → s.mem.wf = true → ra ≠ spIndex → rb ≠ spIndex →
    s.sp.toNat + 1 ≤ 255 → s.sp.toNat + 1 ≠ 0xF4 → s.pc.toNat + 4 ≤ 255 →
    ∃ t u, exec (.push (regByte ra)) s = .next t ∧ exec (.pop (regByte rb)) t = .next u ∧
      u.readReg rb = s.readReg ra ∧ u.sp = s.sp ∧ u.pc.toNat = s.pc.toNat + 4 ∧
      ∀ q : Fin 8, q ≠ rb → u.readReg q = s.readReg q

/-- A CALL and any later RET that finds SP and the cell at it as CALL left them: the PC is the call site's address + 2,
and SP is as before the CALL, whatever ran between. -/
def Obligations.RetReturnsToCallSitePlusTwo : Prop :=
  ∀ (ra : Fin 8) (s : State), s.mem.wf = true → s.pc.toNat + 2 ≤ 255 → s.sp.toNat + 1 ≤ 255 →
    s.sp.toNat + 1 ≠ 0xF4 →
    ∃ t, exec (.call (regByte ra)) s = .next t ∧
      ∀ v : State, v.sp = t.sp → v.mem.read v.sp.toNat = t.mem.read t.sp.toNat →
        ∃ u, exec .ret v = .next u ∧ u.pc.toNat = s.pc.toNat + 2 ∧ u.sp = s.sp

/-- After CMP, JEQ is taken iff the two values were equal and JNE iff they were not. -/
def Obligations.CmpThenBranchOnEquality : Prop :=
  ∀ (ra rb rc : Fin 8) (s : State), s.config.table.ok = true → s.pc.toNat + 5 ≤ 255 →
    ∃ t, exec (.cmp (regByte ra) (regByte rb)) s = .next t ∧
      exec (.jeq (regByte rc)) t =
        .next { t with pc := if s.readReg ra = s.readReg rb then s.readReg rc else s.pc + 5#8 } ∧
      exec (.jne (regByte rc)) t =
        .next { t with pc := if s.readReg ra = s.readReg rb then s.pc + 5#8 else s.readReg rc }

/-- The next opcode fetch sees the byte a PUSH or CALL has just stored, whatever the byte, under both fetch modes: PUSH when
`pc + 2` is the new SP, and CALL when its target is the new SP (CALL R7: decision D11, log entry 15). -/
def Obligations.StoredByteIsFetchedNext : Prop :=
  ∀ (ra : Fin 8) (s : State), s.config.table.ok = true → s.mem.wf = true → s.status = .running → s.pc.toNat + 2 ≤ 255 →
    s.sp.toNat + 1 ≤ 255 →
    (s.sp.toNat + 1 = s.pc.toNat + 2 →
      ∃ t, exec (.push (regByte ra)) s = .next t ∧
        NextOpcodeIs t (if ra = spIndex then s.sp + 1#8 else s.readReg ra)) ∧
    ((ra = spIndex ∨ (s.readReg ra).toNat = s.sp.toNat + 1) →
      ∃ t, exec (.call (regByte ra)) s = .next t ∧ NextOpcodeIs t (s.pc + 2#8))

/-! ### Reset, load and boot -/

/-- The state after construction, for every configuration, and that reset is construction under the default parameters
(the flags, the memory and the error field are the spec's decisions D9, D10, D13). -/
def Obligations.ResetStateIsAsSpecified : Prop :=
  (∀ (c : Config) (r : Fin 8), (State.construct c).readReg r = if r = spIndex then 0xF4#8 else 0#8) ∧
  (∀ c : Config, (State.construct c).pc = 0#8 ∧ (State.construct c).status = .running ∧
    (State.construct c).flags = { l := false, g := false, e := false } ∧ (State.construct c).error = none ∧
    (State.construct c).out = [] ∧ (∀ x : Nat, (State.construct c).mem.read x = 0#8) ∧ (State.construct c).config = c) ∧
  State.reset = State.construct { underflowPolicy := .silent, operandFetch := .byCount, table := OpcodeTable.default }

/-- `70_reset_and_hazards.md` R132: the load copies the image to addresses 0 up, and changes nothing else. -/
def Obligations.LoadCopiesImageFromAddressZero : Prop :=
  ∀ (s : State) (img : List Byte), s.mem.wf = true → img.length ≤ 256 →
    (∀ (i : Nat) (v : Byte), img[i]? = some v → (s.load img).mem.read i = v) ∧
    (∀ x : Nat, img.length ≤ x → (s.load img).mem.read x = s.mem.read x) ∧
    s.load img = { s with mem := (s.load img).mem }

/-- A launch is refused when its image has more than 256 bytes (decision D15); otherwise it is a Running machine at
address 0 that holds the image and 0 elsewhere, and meets the invariant (decision D10). -/
def Obligations.LaunchLoadsOrRefuses : Prop :=
  ∀ (c : Config) (img : List Byte), c.table.ok = true →
    (256 < img.length → launch c img = .refused .imageTooLong) ∧
    (img.length ≤ 256 → ∃ s, launch c img = .next s ∧ s.pc = 0#8 ∧ s.status = .running ∧ s.sp = 0xF4#8 ∧ Inv s ∧
      ∀ x : Nat, s.mem.read x = img.getD x 0#8)

/-- Image text. A line of eight digits, the most significant first, gives the byte; blank lines and lines that start with #
add nothing; a comment after a literal, with blanks before it, changes nothing (log entry 19). The lines' bytes are the
image, in order: a byte line puts its byte first, a skipped line adds nothing, any other line leaves no image (log entry
19). A text is cut at its line ends, so the text of an image loads exactly the image, and a text with its skipped lines
stripped gives the same image. -/
def Obligations.ImageTextGivesItsBytes : Prop :=
  (∀ (v : Byte) (blanks comment : List Char), (∀ c ∈ blanks, c = ' ') →
    parseLine (digits v ++ blanks ++ '#' :: comment) = some (some v) ∧ parseLine (digits v) = some (some v)) ∧
  (∀ comment : List Char, parseLine [] = some none ∧ parseLine ('#' :: comment) = some none) ∧
  parseLines [] = some [] ∧
  (∀ (line : List Char) (lines : List (List Char)),
    (∀ v, parseLine line = some (some v) → parseLines (line :: lines) = (parseLines lines).map fun bytes => v :: bytes) ∧
    (parseLine line = some none → parseLines (line :: lines) = parseLines lines) ∧
    (parseLine line = none → parseLines (line :: lines) = none)) ∧
  (∀ lines : List (List Char), (∀ line ∈ lines, '\n' ∉ line) →
    (lines ≠ [] → splitLines (joinLines lines) = lines) ∧
    parseImage (joinLines lines) = parseLines lines ∧
    parseImage (joinLines (lines.filter fun line => decide (parseLine line ≠ some none))) = parseImage (joinLines lines)) ∧
  (∀ img : List Byte, parseImage (joinLines (img.map digits)) = some img) ∧
  (∀ (c : Config) (img : List Byte), launchText c (joinLines (img.map digits)) = launch c img)

/-- A run from a state that meets the invariant ends, is cut by a finite budget, or goes on for ever under an unbounded
one, exactly one of the three; its end is the same state under every `FUEL` that lets it end. -/
def Obligations.EveryRunEndsIsCutOrGoesOn : Prop :=
  ∀ (f : Fuel) (s : State), Inv s →
    ((∃ t, RunEnds f s t) ∨ (∃ t, RunIsCut f s t) ∨ RunGoesOn f s) ∧
    (∀ t, RunEnds f s t → (∀ u, ¬ RunIsCut f s u) ∧ ¬ RunGoesOn f s) ∧
    (∀ t, RunIsCut f s t → ¬ RunGoesOn f s) ∧
    (∀ t u, RunEnds f s t → RunEnds .unbounded s u → t = u) ∧
    (∀ t, RunEnds .unbounded s t ↔ ∃ n, RunEnds (.steps n) s t)
end

