-- ==== Sys2Proof/Laws/Decode.lean ====
section
/-! SUPPORT. What the opcode table gives: a byte found stands for its mnemonic, and a table that meets
`30_encoding.md` R61 gives each mnemonic's byte the fields of its format. -/

namespace Sys2Proof

theorem Mnemonic.mem_all (m : Mnemonic) : m ∈ Mnemonic.all := by cases m <;> decide

theorem AluOp.mem_all (o : AluOp) : o ∈ AluOp.all := by cases o <;> decide

/-- The byte looked up is the table's byte of the mnemonic found. -/
theorem OpcodeTable.lookup_some (t : OpcodeTable) (op : Byte) (m : Mnemonic) (h : t.lookup op = some m) :
    t.byteOf m = op := by
  simpa using List.find?_some h

/-- A byte is found iff it is some mnemonic's. -/
theorem OpcodeTable.lookup_none (t : OpcodeTable) (op : Byte) : t.lookup op = none ↔ ∀ m, t.byteOf m ≠ op := by
  simp only [OpcodeTable.lookup, List.find?_eq_none, beq_iff_eq]
  exact ⟨fun h m => h m (Mnemonic.mem_all m), fun h m _ => h m⟩

/-- The fields a table that meets R61 gives each mnemonic's byte. -/
theorem OpcodeTable.ok_fields (t : OpcodeTable) (h : t.ok = true) (m : Mnemonic) :
    opCount (t.byteOf m) = m.operandCount ∧ opIsAlu (t.byteOf m) = m.isAlu ∧ opSetsPc (t.byteOf m) = m.setsPc := by
  simp only [OpcodeTable.ok, Bool.and_eq_true, List.all_eq_true] at h
  have hm := h.1.2 m (Mnemonic.mem_all m)
  simp only [OpcodeTable.fieldsOk, Bool.and_eq_true, decide_eq_true_eq, beq_iff_eq] at hm
  exact ⟨hm.1.1.1, hm.1.1.2, hm.1.2⟩

/-- Distinct mnemonics have distinct bytes in a table that meets R61. -/
theorem OpcodeTable.ok_inj (t : OpcodeTable) (h : t.ok = true) (m n : Mnemonic) (e : t.byteOf m = t.byteOf n) : m = n := by
  simp only [OpcodeTable.ok, Bool.and_eq_true, decide_eq_true_eq] at h
  exact List.inj_on_of_nodup_map h.1.1 (Mnemonic.mem_all m) (Mnemonic.mem_all n) e

/-- Looking up a mnemonic's own byte finds it. -/
theorem OpcodeTable.lookup_byteOf (t : OpcodeTable) (h : t.ok = true) (m : Mnemonic) : t.lookup (t.byteOf m) = some m := by
  cases hl : t.lookup (t.byteOf m) with
  | none => exact absurd rfl ((t.lookup_none _).1 hl m)
  | some n => rw [t.ok_inj h n m (t.lookup_some _ n hl)]

/-- Distinct ALU operations have distinct selectors in a table that meets R61. -/
theorem OpcodeTable.ok_selector_inj (t : OpcodeTable) (h : t.ok = true) (o p : AluOp)
    (e : opIdent (t.byteOf o.mnemonic) = opIdent (t.byteOf p.mnemonic)) : o = p := by
  simp only [OpcodeTable.ok, Bool.and_eq_true, decide_eq_true_eq] at h
  exact List.inj_on_of_nodup_map h.2 (AluOp.mem_all o) (AluOp.mem_all p) e

/-- The opcode count plus one is the instruction's length. -/
theorem OpcodeTable.ok_length (t : OpcodeTable) (h : t.ok = true) (m : Mnemonic) :
    opCount (t.byteOf m) + 1 = m.operandCount + 1 := by
  rw [(t.ok_fields h m).1]

/-! ### Reading an instruction off bytes -/

theorem Instr.operands_length (i : Instr) : i.operands.length = i.mnemonic.operandCount := by cases i <;> rfl

theorem Instr.registerOperands_sub (i : Instr) (r : Byte) (h : r ∈ i.registerOperands) : r ∈ i.operands := by
  cases i <;> simp [Instr.registerOperands, Instr.operands] at h ⊢ <;> simp [h]

theorem Mnemonic.operandCount_le (m : Mnemonic) : m.operandCount ≤ 2 := by cases m <;> decide

/-- Bits 7..6 are the byte divided by 64. -/
theorem opCount_eq_div (op : Byte) : opCount op = op.toNat / 64 := by
  simp only [opCount, BitVec.extractLsb'_toNat, Nat.shiftRight_eq_div_pow]
  have := op.isLt
  omega

/-- What a mnemonic builds is an instruction of that mnemonic, from its own operand bytes. -/
theorem Mnemonic.build_some (m : Mnemonic) (bytes rest : List Byte) (i : Instr) (h : m.build bytes = some (i, rest)) :
    i.mnemonic = m ∧ bytes = i.operands ++ rest := by
  cases m <;> simp only [Mnemonic.build, Mnemonic.shape] at h <;> (try split at h) <;> simp at h <;>
    (obtain ⟨rfl, rfl⟩ := h; exact ⟨rfl, by simp [Instr.operands]⟩)

/-- A mnemonic builds as soon as its operand bytes are there. -/
theorem Mnemonic.build_of_length (m : Mnemonic) (bytes : List Byte) (h : m.operandCount ≤ bytes.length) :
    ∃ i rest, m.build bytes = some (i, rest) := by
  rcases bytes with _ | ⟨a, _ | ⟨b, r⟩⟩ <;> cases m <;>
    simp [Mnemonic.build, Mnemonic.shape, Mnemonic.operandCount, Mnemonic.format, Format.operandCount] at h ⊢

/-- What decodes has the opcode byte of its mnemonic, and its own operand bytes after it. -/
theorem decode_inv (t : OpcodeTable) (op : Byte) (bytes rest : List Byte) (i : Instr)
    (h : decode t (op :: bytes) = .ok (i, rest)) : t.lookup op = some i.mnemonic ∧ bytes = i.operands ++ rest := by
  simp only [decode, decodeByte] at h
  split at h
  · cases h
  · next m hm =>
    split at h
    · next r hr =>
      cases h
      have := m.build_some _ _ _ hr
      rw [this.1]
      exact ⟨hm, this.2⟩
    · cases h

/-- A byte that is found decodes as soon as its operand bytes are there. -/
theorem decode_of_lookup (t : OpcodeTable) (op : Byte) (bytes : List Byte) (m : Mnemonic) (h : t.lookup op = some m)
    (hl : m.operandCount ≤ bytes.length) : ∃ i rest, decode t (op :: bytes) = .ok (i, rest) := by
  obtain ⟨i, rest, hi⟩ := m.build_of_length bytes hl
  exact ⟨i, rest, by simp only [decode, decodeByte, h, hi]⟩

/-- An instruction is its mnemonic and its operand bytes. -/
theorem Instr.eq_of_operands (i j : Instr) (hm : i.mnemonic = j.mnemonic) (ho : i.operands = j.operands) : i = j := by
  cases i <;> cases j <;> simp [Instr.mnemonic] at hm <;> simp [Instr.operands] at ho <;> simp [ho]

end Sys2Proof
end

