-- ==== Sys2Proof/Laws/Memory.lean ====
section
/-! SUPPORT. The laws of memory: a read after a write, and that every memory operation keeps the canonical form. -/

namespace Sys2Proof.Machine

/-- In a canonical memory from `lo` up, an address below `lo` is not listed. -/
theorem Memory.read_below (m : Memory) (lo a : Nat) (h : m.wfFrom lo = true) (ha : a < lo) :
    m.read a = Memory.unlisted := by
  induction m generalizing lo with
  | nil => rfl
  | cons c rest ih =>
    obtain ⟨k, v⟩ := c
    simp only [Memory.wfFrom, Bool.and_eq_true, decide_eq_true_eq] at h
    have hk : ¬ k = a := by omega
    simp only [Memory.read, hk, if_false]
    exact ih (k + 1) h.2 (by omega)

theorem Memory.wfFrom_mono (m : Memory) (lo hi : Nat) (hle : lo ≤ hi) (h : m.wfFrom hi = true) : m.wfFrom lo = true := by
  cases m with
  | nil => rfl
  | cons c rest =>
    obtain ⟨k, v⟩ := c
    simp only [Memory.wfFrom, Bool.and_eq_true, decide_eq_true_eq] at h ⊢
    exact ⟨⟨⟨by omega, h.1.1.2⟩, h.1.2⟩, h.2⟩

/-- A write keeps the canonical form from `lo` up. -/
theorem Memory.wfFrom_write (m : Memory) (lo a : Nat) (v : Byte) (h : m.wfFrom lo = true) (hlo : lo ≤ a) (ha : a < 256) :
    (m.write a v).wfFrom lo = true := by
  induction m generalizing lo with
  | nil =>
    by_cases hv : v = Memory.unlisted <;> simp [Memory.write, Memory.wfFrom, hv, hlo, ha]
  | cons c rest ih =>
    obtain ⟨k, w⟩ := c
    simp only [Memory.wfFrom, Bool.and_eq_true, decide_eq_true_eq] at h
    obtain ⟨⟨⟨h1, h2⟩, h3⟩, h4⟩ := h
    simp only [Memory.write]
    split
    · next hlt =>
      split
      · simp [Memory.wfFrom, h1, h2, h3, h4]
      · next hv =>
        have : a + 1 ≤ k := hlt
        simp [Memory.wfFrom, hlo, ha, hv, h2, h3, h4, this]
    · split
      · next heq =>
        subst heq
        split
        · exact Memory.wfFrom_mono rest lo (a + 1) (by omega) h4
        · next hv => simp [Memory.wfFrom, hlo, ha, hv, h4]
      · have := ih (k + 1) h4 (by omega)
        simp [Memory.wfFrom, h1, h2, h3, this]

/-- A write keeps the canonical form. -/
theorem Memory.wf_write (m : Memory) (a : Nat) (v : Byte) (h : m.wf = true) (ha : a < 256) : (m.write a v).wf = true :=
  Memory.wfFrom_write m 0 a v h (Nat.zero_le a) ha

theorem Memory.read_write_from (m : Memory) (lo a b : Nat) (v : Byte) (h : m.wfFrom lo = true) :
    (m.write a v).read b = if a = b then v else m.read b := by
  induction m generalizing lo with
  | nil =>
    by_cases hv : v = Memory.unlisted <;> by_cases hab : a = b <;> simp [Memory.write, Memory.read, hv, hab]
  | cons c rest ih =>
    obtain ⟨k, w⟩ := c
    simp only [Memory.wfFrom, Bool.and_eq_true, decide_eq_true_eq] at h
    obtain ⟨-, h4⟩ := h
    have hrest := ih (k + 1) h4
    simp only [Memory.write]
    split
    · next hlt =>
      split
      · next hv =>
        by_cases hab : a = b
        · subst hab
          have hk : ¬ k = a := by omega
          simp [Memory.read, hk, hv, Memory.read_below rest (k + 1) a h4 (by omega)]
        · simp [hab]
      · by_cases hab : a = b <;> simp [Memory.read, hab]
    · split
      · next heq =>
        subst heq
        split
        · next hv =>
          by_cases hab : a = b
          · subst hab
            simp [hv, Memory.read_below rest (a + 1) a h4 (by omega)]
          · simp [Memory.read, hab]
        · by_cases hab : a = b <;> simp [Memory.read, hab]
      · next hne =>
        simp only [Memory.read, hrest]
        by_cases hkb : k = b
        · have hab : ¬ a = b := by omega
          simp [hkb, hab]
        · simp [hkb]

/-- A read after a write: the byte written at its address, and every other byte as before. -/
theorem Memory.read_write (m : Memory) (a b : Nat) (v : Byte) (h : m.wf = true) :
    (m.write a v).read b = if a = b then v else m.read b :=
  Memory.read_write_from m 0 a b v h

@[simp] theorem Memory.read_write_same (m : Memory) (a : Nat) (v : Byte) (h : m.wf = true) : (m.write a v).read a = v := by
  simp [Memory.read_write m a a v h]

theorem Memory.read_write_other (m : Memory) (a b : Nat) (v : Byte) (h : m.wf = true) (hab : a ≠ b) :
    (m.write a v).read b = m.read b := by
  simp [Memory.read_write m a b v h, hab]

/-- Writing consecutive bytes below address 256 keeps the canonical form. -/
theorem Memory.wf_writeAll (bytes : List Byte) (m : Memory) (a : Nat) (h : m.wf = true) (hlen : a + bytes.length ≤ 256) :
    (m.writeAll a bytes).wf = true := by
  induction bytes generalizing m a with
  | nil => exact h
  | cons v rest ih =>
    simp only [List.length_cons] at hlen
    exact ih (m.write a v) (a + 1) (Memory.wf_write m a v h (by omega)) (by omega)

/-- Placing bytes at the PC keeps the canonical form. -/
theorem placeAtPc_wf (s : State) (bytes : List Byte) (h : s.mem.wf = true) : (placeAtPc s bytes).mem.wf = true := by
  have := s.pc.isLt
  refine Memory.wf_writeAll _ s.mem s.pc.toNat h ?_
  simp only [List.length_take]
  omega

/-- Loading an image of at most 256 bytes keeps the canonical form. -/
theorem State.load_wf (s : State) (img : List Byte) (h : s.mem.wf = true) (hlen : img.length ≤ 256) :
    (s.load img).mem.wf = true :=
  Memory.wf_writeAll img s.mem 0 h (by omega)

/-- The reset memory is in canonical form. -/
theorem State.construct_wf (c : Config) : (State.construct c).mem.wf = true := rfl

/-- Canonical memories that read the same everywhere are the same list. -/
theorem Memory.ext_from (m n : Memory) (lo : Nat) (hm : m.wfFrom lo = true) (hn : n.wfFrom lo = true)
    (h : ∀ a, m.read a = n.read a) : m = n := by
  induction m generalizing n lo with
  | nil =>
    cases n with
    | nil => rfl
    | cons d rest =>
      obtain ⟨j, w⟩ := d
      simp only [Memory.wfFrom, Bool.and_eq_true, decide_eq_true_eq] at hn
      have := h j
      simp [Memory.read] at this
      exact absurd this.symm hn.1.2
  | cons c rest ih =>
    obtain ⟨k, v⟩ := c
    have hm' := hm
    simp only [Memory.wfFrom, Bool.and_eq_true, decide_eq_true_eq] at hm
    cases n with
    | nil =>
      have := h k
      simp [Memory.read] at this
      exact absurd this hm.1.2
    | cons d rest' =>
      obtain ⟨j, w⟩ := d
      have hn' := hn
      simp only [Memory.wfFrom, Bool.and_eq_true, decide_eq_true_eq] at hn
      have hkj : k = j := by
        rcases Nat.lt_trichotomy k j with hlt | heq | hgt
        · have h1 := h k
          have hjk : ¬ j = k := by omega
          simp only [Memory.read, if_true, hjk, if_false, Memory.read_below rest' (j + 1) k hn.2 (by omega)] at h1
          exact absurd h1 hm.1.2
        · exact heq
        · have h1 := h j
          have hkj : ¬ k = j := by omega
          simp only [Memory.read, if_true, hkj, if_false, Memory.read_below rest (k + 1) j hm.2 (by omega)] at h1
          exact absurd h1.symm hn.1.2
      subst hkj
      have hv : v = w := by simpa [Memory.read] using h k
      subst hv
      have : rest = rest' := by
        refine ih rest' (k + 1) hm.2 hn.2 fun a => ?_
        by_cases hka : k = a
        · subst hka
          rw [Memory.read_below rest (k + 1) k hm.2 (by omega), Memory.read_below rest' (k + 1) k hn.2 (by omega)]
        · simpa [Memory.read, hka] using h a
      rw [this]

theorem Memory.ext (m n : Memory) (hm : m.wf = true) (hn : n.wf = true) (h : ∀ a, m.read a = n.read a) : m = n :=
  Memory.ext_from m n 0 hm hn h

end Sys2Proof.Machine
end

