-- ==== Sys2Proof/Laws/State.lean ====
section
/-! SUPPORT. What reading a field gives after each update of State, one lemma a field, and the register file's laws. -/

namespace Sys2Proof.Machine

@[simp] theorem State.writeReg_config (s : State) (r : Fin 8) (v : Byte) : (s.writeReg r v).config = s.config := rfl
@[simp] theorem State.writeReg_pc (s : State) (r : Fin 8) (v : Byte) : (s.writeReg r v).pc = s.pc := rfl
@[simp] theorem State.writeReg_flags (s : State) (r : Fin 8) (v : Byte) : (s.writeReg r v).flags = s.flags := rfl
@[simp] theorem State.writeReg_status (s : State) (r : Fin 8) (v : Byte) : (s.writeReg r v).status = s.status := rfl
@[simp] theorem State.writeReg_error (s : State) (r : Fin 8) (v : Byte) : (s.writeReg r v).error = s.error := rfl
@[simp] theorem State.writeReg_out (s : State) (r : Fin 8) (v : Byte) : (s.writeReg r v).out = s.out := rfl
@[simp] theorem State.writeReg_mem (s : State) (r : Fin 8) (v : Byte) : (s.writeReg r v).mem = s.mem := rfl

@[simp] theorem State.takeError_config (s : State) (op : Byte) (e : Raised) : (s.takeError op e).config = s.config := rfl
@[simp] theorem State.takeError_regs (s : State) (op : Byte) (e : Raised) : (s.takeError op e).regs = s.regs := rfl
@[simp] theorem State.takeError_pc (s : State) (op : Byte) (e : Raised) : (s.takeError op e).pc = s.pc := rfl
@[simp] theorem State.takeError_flags (s : State) (op : Byte) (e : Raised) : (s.takeError op e).flags = s.flags := rfl
@[simp] theorem State.takeError_status (s : State) (op : Byte) (e : Raised) : (s.takeError op e).status = .halted := rfl
@[simp] theorem State.takeError_error (s : State) (op : Byte) (e : Raised) : (s.takeError op e).error =
    some { kind := e.kind, pc := s.pc, opcode := op, detail := e.detail } := rfl
@[simp] theorem State.takeError_out (s : State) (op : Byte) (e : Raised) : (s.takeError op e).out = s.out := rfl
@[simp] theorem State.takeError_mem (s : State) (op : Byte) (e : Raised) : (s.takeError op e).mem = s.mem := rfl

@[simp] theorem State.setMem_readReg (s : State) (m : Memory) (r : Fin 8) : { s with mem := m }.readReg r = s.readReg r := rfl
@[simp] theorem State.setPc_readReg (s : State) (p : Byte) (r : Fin 8) : { s with pc := p }.readReg r = s.readReg r := rfl
@[simp] theorem State.setFlags_readReg (s : State) (f : Flags) (r : Fin 8) : { s with flags := f }.readReg r = s.readReg r := rfl
@[simp] theorem State.setOut_readReg (s : State) (o : List Byte) (r : Fin 8) : { s with out := o }.readReg r = s.readReg r := rfl
@[simp] theorem State.setStatus_readReg (s : State) (x : Status) (r : Fin 8) : { s with status := x }.readReg r = s.readReg r := rfl
@[simp] theorem State.takeError_readReg (s : State) (op : Byte) (e : Raised) (r : Fin 8) : (s.takeError op e).readReg r = s.readReg r := rfl

/-- Reading a register after a write: the value written, or what the register held. -/
theorem State.readReg_writeReg (s : State) (r q : Fin 8) (v : Byte) :
    (s.writeReg r v).readReg q = if r = q then v else s.readReg q := by
  simp [State.readReg, State.writeReg, Vector.getElem_set, Fin.ext_iff]

@[simp] theorem State.readReg_writeReg_same (s : State) (r : Fin 8) (v : Byte) : (s.writeReg r v).readReg r = v := by
  simp [State.readReg_writeReg]

theorem State.readReg_writeReg_other (s : State) (r q : Fin 8) (v : Byte) (h : r ≠ q) :
    (s.writeReg r v).readReg q = s.readReg q := by
  simp [State.readReg_writeReg, h]

/-- Writing back what a register holds changes nothing. -/
theorem State.writeReg_readReg (s : State) (r : Fin 8) : s.writeReg r (s.readReg r) = s := by
  simp [State.writeReg, State.readReg]

@[simp] theorem State.sp_eq (s : State) : s.readReg spIndex = s.sp := rfl

end Sys2Proof.Machine
end

