-- ==== Sys2Proof/Laws/Ops.lean ====
section
/-! SUPPORT. What each shared operation can do, said once: the provers cite these lemmas and do not unfold the
operations. -/

namespace Sys2Proof.Machine

/-! ### Address checks -/

theorem checkAddr_ok (n : Int) (h : 0 ≤ n ∧ n ≤ 255) : checkAddr n = .ok (BitVec.ofInt 8 n) := by
  simp [checkAddr, h]

theorem checkAddr_error (n : Int) (h : ¬ (0 ≤ n ∧ n ≤ 255)) : checkAddr n = .error (.memoryOutOfRange n) := by
  simp only [checkAddr, h, if_false]

theorem ofInt_toNat (n : Int) (h : 0 ≤ n ∧ n ≤ 255) : ((BitVec.ofInt 8 n).toNat : Int) = n := by
  rw [BitVec.toNat_ofInt]
  omega

/-- An address that passes the check is the integer computed. -/
theorem checkAddr_eq_ok (n : Int) (a : Byte) (h : checkAddr n = .ok a) : (a.toNat : Int) = n := by
  by_cases hn : 0 ≤ n ∧ n ≤ 255
  · rw [checkAddr_ok n hn] at h
    cases h
    exact ofInt_toNat n hn
  · rw [checkAddr_error n hn] at h
    cases h

/-- The check fails only for an integer outside 0..255, and raises that integer. -/
theorem checkAddr_eq_error (n : Int) (e : Raised) (h : checkAddr n = .error e) :
    e = .memoryOutOfRange n ∧ (n < 0 ∨ 255 < n) := by
  by_cases hn : 0 ≤ n ∧ n ≤ 255
  · rw [checkAddr_ok n hn] at h
    cases h
  · rw [checkAddr_error n hn] at h
    cases h
    exact ⟨rfl, by omega⟩

/-- The check of a byte's own value always passes. -/
@[simp] theorem checkAddr_toNat (a : Byte) : checkAddr a.toNat = .ok a := by
  have := a.isLt
  rw [checkAddr_ok _ (by omega)]
  simp

@[simp] theorem memRead_toNat (s : State) (a : Byte) : memRead s a.toNat = .ok (s.mem.read a.toNat) := by
  simp [memRead, bind, Except.bind, pure, Except.pure]

@[simp] theorem memWrite_toNat (s : State) (a v : Byte) :
    memWrite s a.toNat v = .ok { s with mem := s.mem.write a.toNat v } := by
  simp [memWrite, bind, Except.bind, pure, Except.pure]

/-! ### Register operands -/

@[simp] theorem resolve_regByte (r : Fin 8) : resolve (regByte r) = .ok r := by
  have h : (regByte r).toNat = r.val := by
    simp only [regByte, BitVec.toNat_ofNat]
    omega
  simp [resolve, h]

/-- A byte that resolves is the byte that names that register. -/
theorem resolve_eq_ok (a : Byte) (r : Fin 8) (h : resolve a = .ok r) : a = regByte r := by
  simp only [resolve] at h
  split at h
  · cases h
    simp [regByte]
  · cases h

theorem resolve_error (a : Byte) (h : 8 ≤ a.toNat) : resolve a = .error (.registerOutOfRange a) := by
  have h' : ¬ a.toNat < 8 := by omega
  simp only [resolve, h', dif_neg, not_false_eq_true]

/-- Resolving fails only for a byte of 8 or more, and raises that byte. -/
theorem resolve_eq_error (a : Byte) (e : Raised) (h : resolve a = .error e) : e = .registerOutOfRange a ∧ 8 ≤ a.toNat := by
  by_cases ha : a.toNat < 8
  · simp only [resolve, ha, dif_pos] at h
    cases h
  · rw [resolve_error a (by omega)] at h
    cases h
    exact ⟨rfl, by omega⟩

/-! ### The stack mechanism -/

theorem pushByte_ok (s : State) (value : State → Byte) (h : s.sp.toNat + 1 ≤ 255) :
    pushByte s value =
      .ok { s.writeReg spIndex (s.sp + 1#8) with
            mem := s.mem.write (s.sp.toNat + 1) (value (s.writeReg spIndex (s.sp + 1#8))) } := by
  have hb : BitVec.ofInt 8 ((s.sp.toNat : Int) + 1) = s.sp + 1#8 := by
    apply BitVec.eq_of_toNat_eq
    rw [BitVec.toNat_ofInt, BitVec.toNat_add]
    simp
    omega
  have hn : (s.sp + 1#8).toNat = s.sp.toNat + 1 := by
    rw [BitVec.toNat_add]
    simp
    omega
  have hc := checkAddr_ok ((s.sp.toNat : Int) + 1) (by omega)
  rw [hb] at hc
  simp only [pushByte, hc, bind, Except.bind, memWrite_toNat]
  rw [hn]
  rfl

theorem pushByte_error (s : State) (value : State → Byte) (h : 255 < s.sp.toNat + 1) :
    pushByte s value = .error (.memoryOutOfRange 256) := by
  have hl : s.sp.toNat < 256 := s.sp.isLt
  have he : (s.sp.toNat : Int) + 1 = 256 := by omega
  simp [pushByte, he, checkAddr, bind, Except.bind]

theorem decrementSp_ok (s : State) (h : 0 < s.sp.toNat) : decrementSp s = .ok (s.writeReg spIndex (s.sp - 1#8)) := by
  have hl : s.sp.toNat < 256 := s.sp.isLt
  have hb : BitVec.ofInt 8 ((s.sp.toNat : Int) - 1) = s.sp - 1#8 := by
    apply BitVec.eq_of_toNat_eq
    rw [BitVec.toNat_ofInt, BitVec.toNat_sub]
    simp
    omega
  simp [decrementSp, checkAddr_ok _ (show (0 : Int) ≤ (s.sp.toNat : Int) - 1 ∧ (s.sp.toNat : Int) - 1 ≤ 255 by omega), hb,
    bind, Except.bind, pure, Except.pure]

theorem decrementSp_error (s : State) (h : s.sp.toNat = 0) : decrementSp s = .error (.memoryOutOfRange (-1)) := by
  simp [decrementSp, h, checkAddr, bind, Except.bind]

/-! ### The end of a transition -/

/-- Every transition ends in a next state: the working copy with the control action applied, or the error entry. -/
theorem transact_cases (m : Mnemonic) (s : State) (r : Effect) :
    (∃ w act w', r = .ok (w, act) ∧ applyAction (s.config.table.byteOf m) w act = .ok w' ∧ transact m s r = .next w') ∨
    (∃ e, (r = .error e ∨ ∃ w act, r = .ok (w, act) ∧ applyAction (s.config.table.byteOf m) w act = .error e) ∧
      transact m s r = .next (s.takeError (s.config.table.byteOf m) e)) := by
  rcases r with e | ⟨w, act⟩
  · exact .inr ⟨e, .inl rfl, rfl⟩
  · cases h : applyAction (s.config.table.byteOf m) w act with
    | error e => exact .inr ⟨e, .inr ⟨w, act, rfl, h⟩, by simp [transact, h]⟩
    | ok w' => exact .inl ⟨w, act, w', rfl, h, by simp [transact, h]⟩

@[simp] theorem transact_error (m : Mnemonic) (s : State) (e : Raised) :
    transact m s (.error e) = .next (s.takeError (s.config.table.byteOf m) e) := rfl

@[simp] theorem transact_setPc (m : Mnemonic) (s w : State) (t : Byte) :
    transact m s (.ok (w, .setPc t)) = .next { w with pc := t } := rfl

@[simp] theorem transact_halt (m : Mnemonic) (s w : State) :
    transact m s (.ok (w, .halt)) = .next { w with status := .halted } := rfl

theorem transact_advance_ok (m : Mnemonic) (s w : State) (n : Nat) (hn : opCount (s.config.table.byteOf m) + 1 = n)
    (h : w.pc.toNat + n ≤ 255) :
    transact m s (.ok (w, .advance)) = .next { w with pc := w.pc + BitVec.ofNat 8 n } := by
  have he : (w.pc.toNat : Int) + opCount (s.config.table.byteOf m) + 1 = (w.pc.toNat + n : Nat) := by omega
  have hb : BitVec.ofInt 8 ((w.pc.toNat : Int) + opCount (s.config.table.byteOf m) + 1) = w.pc + BitVec.ofNat 8 n := by
    rw [he]
    apply BitVec.eq_of_toNat_eq
    rw [BitVec.toNat_ofInt, BitVec.toNat_add, BitVec.toNat_ofNat]
    omega
  have hc := checkAddr_ok ((w.pc.toNat : Int) + opCount (s.config.table.byteOf m) + 1) (by omega)
  rw [hb] at hc
  simp [transact, applyAction, hc, bind, Except.bind, pure, Except.pure]

theorem transact_advance_error (m : Mnemonic) (s w : State) (n : Nat) (hn : opCount (s.config.table.byteOf m) + 1 = n)
    (h : 255 < w.pc.toNat + n) :
    transact m s (.ok (w, .advance)) =
      .next (s.takeError (s.config.table.byteOf m) (.memoryOutOfRange (w.pc.toNat + n))) := by
  have he : (w.pc.toNat : Int) + opCount (s.config.table.byteOf m) + 1 = (w.pc.toNat + n : Nat) := by omega
  have hc := checkAddr_error ((w.pc.toNat : Int) + opCount (s.config.table.byteOf m) + 1) (by omega)
  rw [he] at hc
  simp only [transact, applyAction, he, hc, bind, Except.bind]
  simp

end Sys2Proof.Machine
end

