-- ==== Sys2Proof/Laws/Fetch.lean ====
section
/-! SUPPORT. Everything a fetch can do (`40_execution_loop.md` R69 to R71), under a table that meets `30_encoding.md`
R61. -/

namespace Sys2Proof.Machine

/-- A read of an address up to 255 gives the byte there. -/
theorem memRead_ok (s : State) (a : Nat) (h : a ≤ 255) : memRead s a = .ok (s.mem.read a) := by
  have := memRead_toNat s (BitVec.ofNat 8 a)
  simp only [BitVec.toNat_ofNat, show a % 2 ^ 8 = a by omega] at this
  exact this

/-- A read of address 256 raises. -/
theorem memRead_256 (s : State) : memRead s 256 = .error (.memoryOutOfRange 256) := rfl

/-- Operand bytes that all lie below address 256 are fetched. -/
theorem fetchOperands_ok (s : State) (op : Byte) (n : Nat) (hc : fetchCount s.config op = n) (hn : n ≤ 2)
    (h : s.pc.toNat + n ≤ 255) :
    fetchOperands s op = .ok ((List.range n).map fun j => s.mem.read (s.pc.toNat + 1 + j)) := by
  have e0 : (s.pc.toNat : Int) + 1 = (s.pc.toNat + 1 : Nat) := by omega
  have e1 : ((s.pc.toNat + 1 : Nat) : Int) + 1 = (s.pc.toNat + 2 : Nat) := by omega
  simp only [fetchOperands, hc, e0]
  match n, h, hn with
  | 0, _, _ => rfl
  | 1, h, _ => simp only [readBytes, memRead_ok s _ h, bind, Except.bind, pure, Except.pure]; rfl
  | 2, h, _ =>
    simp only [readBytes, e1, memRead_ok s _ (show s.pc.toNat + 1 ≤ 255 by omega), memRead_ok s _ h, bind, Except.bind,
      pure, Except.pure]
    rfl

/-- Operand bytes that do not all lie below address 256 raise MemoryOutOfRange(256). -/
theorem fetchOperands_error (s : State) (op : Byte) (n : Nat) (hc : fetchCount s.config op = n) (hn : n ≤ 2)
    (h : 255 < s.pc.toNat + n) : fetchOperands s op = .error (.memoryOutOfRange 256) := by
  have hl : s.pc.toNat < 256 := s.pc.isLt
  simp only [fetchOperands, hc]
  match n, h, hn with
  | 0, h, _ => omega
  | 1, h, _ =>
    rw [show (s.pc.toNat : Int) + 1 = 256 by omega]
    simp [readBytes, memRead_256, bind, Except.bind]
  | 2, h, _ =>
    by_cases h5 : s.pc.toNat = 255
    · rw [show (s.pc.toNat : Int) + 1 = 256 by omega]
      simp [readBytes, memRead_256, bind, Except.bind]
    · rw [show (s.pc.toNat : Int) + 1 = (255 : Nat) by omega]
      simp only [readBytes, memRead_ok s 255 (by omega), bind, Except.bind, show ((255 : Nat) : Int) + 1 = 256 by omega,
        memRead_256]

/-- How many operand bytes are fetched after a mnemonic's byte. -/
theorem fetchCount_byteOf (c : Config) (m : Mnemonic) (ok : c.table.ok = true) :
    fetchCount c (c.table.byteOf m) = match c.operandFetch with
      | .byCount => m.operandCount
      | .alwaysTwo => 2 := by
  have h := (c.table.ok_fields ok m).1
  unfold fetchCount
  cases c.operandFetch
  · exact h
  · rfl

theorem fetchCount_range (c : Config) (m : Mnemonic) (ok : c.table.ok = true) :
    m.operandCount ≤ fetchCount c (c.table.byteOf m) ∧ fetchCount c (c.table.byteOf m) ≤ 2 := by
  rw [fetchCount_byteOf c m ok]
  have := m.operandCount_le
  split <;> omega

/-- A fetch gives the instruction whose bytes stand at the PC, or raises UnsupportedOpcode for a byte outside the table,
or MemoryOutOfRange(256) for a fetch that runs past the top; nothing else. -/
theorem fetch_cases (s : State) (ok : s.config.table.ok = true) :
    (∃ i, fetch s = .ok i ∧ s.config.table.byteOf i.mnemonic = s.mem.read s.pc.toNat ∧
      s.pc.toNat + fetchCount s.config (s.mem.read s.pc.toNat) ≤ 255 ∧ s.pc.toNat + i.operands.length ≤ 255 ∧
      ∀ j (hj : j < i.operands.length), i.operands[j] = s.mem.read (s.pc.toNat + 1 + j)) ∨
    (fetch s = .error (.raised (s.mem.read s.pc.toNat) .unsupportedOpcode) ∧
      ∀ m, s.config.table.byteOf m ≠ s.mem.read s.pc.toNat) ∨
    (fetch s = .error (.raised (s.mem.read s.pc.toNat) (.memoryOutOfRange 256)) ∧
      ∃ m, s.config.table.byteOf m = s.mem.read s.pc.toNat ∧
        255 < s.pc.toNat + fetchCount s.config (s.mem.read s.pc.toNat)) := by
  cases hl : s.config.table.lookup (s.mem.read s.pc.toNat) with
  | none => exact .inr (.inl ⟨by simp [fetch, decodeByte, hl], (s.config.table.lookup_none _).1 hl⟩)
  | some m =>
    have hb := s.config.table.lookup_some _ _ hl
    have hr := fetchCount_range s.config m ok
    rw [hb] at hr
    by_cases h : s.pc.toNat + fetchCount s.config (s.mem.read s.pc.toNat) ≤ 255
    · left
      have hf := fetchOperands_ok s _ _ rfl hr.2 h
      obtain ⟨i, rest, hd⟩ := decode_of_lookup s.config.table (s.mem.read s.pc.toNat)
        ((List.range (fetchCount s.config (s.mem.read s.pc.toNat))).map fun j => s.mem.read (s.pc.toNat + 1 + j)) m hl
        (by simpa using hr.1)
      obtain ⟨hm, hops⟩ := decode_inv _ _ _ _ _ hd
      have him : i.mnemonic = m := by simpa [hl] using hm.symm
      have hlen := i.operands_length
      rw [him] at hlen
      refine ⟨i, by simp only [fetch, decodeByte, hl, hf, hd], by rw [him, hb], h, by omega, fun j hj => ?_⟩
      have h9 : (i.operands ++ rest)[j]? = some (i.operands[j]) := by
        rw [List.getElem?_append_left hj]
        simp [hj]
      rw [← hops] at h9
      simp [List.getElem?_map,
        List.getElem?_range (show j < fetchCount s.config (s.mem.read s.pc.toNat) by omega)] at h9
      exact h9.symm
    · exact .inr (.inr ⟨by simp only [fetch, decodeByte, hl, fetchOperands_error s _ _ rfl hr.2 (by omega)], m, hb, by omega⟩)

/-- Under any table: what is fetched has the opcode byte at the PC, and an error is recorded with it. -/
theorem fetch_opcode (s : State) :
    (∀ i, fetch s = .ok i → s.config.table.byteOf i.mnemonic = s.mem.read s.pc.toNat) ∧
    (∀ op e, fetch s = .error (.raised op e) → op = s.mem.read s.pc.toNat) := by
  constructor
  · intro i h
    simp only [fetch] at h
    repeat' split at h
    all_goals cases h
    next hd => exact s.config.table.lookup_some _ _ (decode_inv _ _ _ _ _ hd).1
  · intro op e h
    simp only [fetch] at h
    repeat' split at h
    all_goals cases h <;> rfl

/-- The bytes that stand at the PC begin with the opcode byte. -/
theorem bytesAt_three (s : State) : bytesAt s 3 = s.mem.read s.pc.toNat ::
    ((if s.pc.toNat + 1 < 256 then [s.mem.read (s.pc.toNat + 1)] else []) ++
      (if s.pc.toNat + 2 < 256 then [s.mem.read (s.pc.toNat + 2)] else [])) := by
  have := s.pc.isLt
  simp [bytesAt, this]

/-- What is fetched is what the bytes at the PC decode to. -/
theorem decode_bytesAt_of_fetch (s : State) (ok : s.config.table.ok = true) (i : Instr) (h : fetch s = .ok i) :
    ∃ rest, decode s.config.table (bytesAt s 3) = .ok (i, rest) := by
  rcases fetch_cases s ok with ⟨j, h1, hb, -, hl, hops⟩ | ⟨h1, -⟩ | ⟨h1, -⟩ <;> rw [h] at h1 <;> cases h1
  have hpc := s.pc.isLt
  have hc := i.mnemonic.operandCount_le
  have hlk := s.config.table.lookup_byteOf ok i.mnemonic
  rw [hb] at hlk
  rw [bytesAt_three]
  generalize htl : (if s.pc.toNat + 1 < 256 then [s.mem.read (s.pc.toNat + 1)] else []) ++
    (if s.pc.toNat + 2 < 256 then [s.mem.read (s.pc.toNat + 2)] else []) = tl
  have hlen : i.mnemonic.operandCount ≤ tl.length := by
    rw [i.operands_length] at hl
    rw [← htl]
    by_cases g1 : s.pc.toNat + 1 < 256 <;> by_cases g2 : s.pc.toNat + 2 < 256 <;> simp [g1, g2] <;> omega
  have hget : ∀ k, k < i.operands.length → tl[k]? = some (s.mem.read (s.pc.toNat + 1 + k)) := by
    intro k hk
    rw [← i.operands_length] at hc
    have g1 : s.pc.toNat + 1 < 256 := by omega
    rw [← htl]
    rcases k with _ | _ | k
    · simp [g1]
    · have g2 : s.pc.toNat + 2 < 256 := by omega
      simp [g1, g2]
    · omega
  obtain ⟨j, rest, hj⟩ := decode_of_lookup s.config.table _ tl i.mnemonic hlk hlen
  obtain ⟨hm, happ⟩ := decode_inv _ _ _ _ _ hj
  have hmn : j.mnemonic = i.mnemonic := by simpa [hlk] using hm.symm
  have hjl : j.operands.length = i.operands.length := by rw [j.operands_length, i.operands_length, hmn]
  have ho : j.operands = i.operands := by
    refine List.ext_getElem hjl fun k hk hk' => ?_
    have e := hget k hk'
    rw [happ, List.getElem?_append_left hk, List.getElem?_eq_getElem hk] at e
    rw [hops k hk']
    exact Option.some.inj e
  exact ⟨rest, by rw [hj, j.eq_of_operands i hmn ho]⟩

end Sys2Proof.Machine
end

