-- ==== Sys2Proof/Laws/Exec.lean ====
section
/-! SUPPORT. Everything an instruction and a step can do, said once: what is committed, what is raised, and the
inversions `exec_cases` and `step_cases` that the provers cite in place of unfolding a meaning. -/

namespace Sys2Proof.Machine

/-! ### The error monad -/

theorem bind_eq_ok {α β : Type} (x : Except Raised α) (f : α → Except Raised β) (b : β) :
    (x >>= f) = .ok b ↔ ∃ a, x = .ok a ∧ f a = .ok b := by
  cases x <;> simp [bind, Except.bind]

theorem bind_eq_error {α β : Type} (x : Except Raised α) (f : α → Except Raised β) (e : Raised) :
    (x >>= f) = .error e ↔ x = .error e ∨ ∃ a, x = .ok a ∧ f a = .error e := by
  cases x <;> simp [bind, Except.bind]

theorem pure_eq_ok {α : Type} (a b : α) : (pure a : Except Raised α) = .ok b ↔ a = b := by simp [pure, Except.pure]

theorem pure_eq_error {α : Type} (a : α) (e : Raised) : (pure a : Except Raised α) = .error e ↔ False := by
  simp [pure, Except.pure]

/-! ### Operations, inverted -/

theorem pushByte_eq_ok (s w : State) (f : State → Byte) (h : pushByte s f = .ok w) :
    s.sp.toNat + 1 ≤ 255 ∧ w = { s.writeReg spIndex (s.sp + 1#8) with
      mem := s.mem.write (s.sp.toNat + 1) (f (s.writeReg spIndex (s.sp + 1#8))) } := by
  by_cases hs : s.sp.toNat + 1 ≤ 255
  · rw [pushByte_ok s f hs] at h
    cases h
    exact ⟨hs, rfl⟩
  · rw [pushByte_error s f (by omega)] at h
    cases h

theorem pushByte_eq_error (s : State) (f : State → Byte) (e : Raised) (h : pushByte s f = .error e) :
    s.sp.toNat = 255 ∧ e = .memoryOutOfRange 256 := by
  have := s.sp.isLt
  by_cases hs : s.sp.toNat + 1 ≤ 255
  · rw [pushByte_ok s f hs] at h
    cases h
  · rw [pushByte_error s f (by omega)] at h
    cases h
    exact ⟨by omega, rfl⟩

theorem decrementSp_eq_ok (s w : State) (h : decrementSp s = .ok w) :
    0 < s.sp.toNat ∧ w = s.writeReg spIndex (s.sp - 1#8) := by
  by_cases hs : 0 < s.sp.toNat
  · rw [decrementSp_ok s hs] at h
    cases h
    exact ⟨hs, rfl⟩
  · rw [decrementSp_error s (by omega)] at h
    cases h

theorem decrementSp_eq_error (s : State) (e : Raised) (h : decrementSp s = .error e) :
    s.sp.toNat = 0 ∧ e = .memoryOutOfRange (-1) := by
  by_cases hs : 0 < s.sp.toNat
  · rw [decrementSp_ok s hs] at h
    cases h
  · rw [decrementSp_error s (by omega)] at h
    cases h
    exact ⟨by omega, rfl⟩

theorem applyAction_eq_ok (op : Byte) (w t : State) (act : Action) (h : applyAction op w act = .ok t) :
    (act = .advance ∧ ∃ n : Byte, (n.toNat : Int) = w.pc.toNat + opCount op + 1 ∧ t = { w with pc := n }) ∨
    (∃ n, act = .setPc n ∧ t = { w with pc := n }) ∨ (act = .halt ∧ t = { w with status := .halted }) := by
  cases act with
  | advance =>
    simp only [applyAction, bind_eq_ok, pure_eq_ok] at h
    obtain ⟨n, hn, rfl⟩ := h
    exact .inl ⟨rfl, n, checkAddr_eq_ok _ _ hn, rfl⟩
  | setPc n => exact .inr (.inl ⟨n, rfl, by simpa [applyAction] using h.symm⟩)
  | halt => exact .inr (.inr ⟨rfl, by simpa [applyAction] using h.symm⟩)

theorem applyAction_eq_error (op : Byte) (w : State) (act : Action) (e : Raised) (h : applyAction op w act = .error e) :
    act = .advance ∧ 255 < w.pc.toNat + opCount op + 1 ∧ e = .memoryOutOfRange (w.pc.toNat + opCount op + 1) := by
  cases act with
  | advance =>
    simp only [applyAction, bind_eq_error, pure_eq_error, and_false, exists_false, or_false] at h
    have := checkAddr_eq_error _ _ h
    exact ⟨rfl, by omega, this.1⟩
  | setPc n => simp [applyAction] at h
  | halt => simp [applyAction] at h

theorem aluApply_eq_flags (op : AluOp) (x y : Byte) (f : Flags) (h : aluApply op x y = .flags f) :
    op = .cmp ∧ f = compareFlags x y := by
  cases op <;> simp [aluApply] at h <;> (try split at h) <;> simp_all

theorem aluApply_eq_domainError (op : AluOp) (x y : Byte) (h : aluApply op x y = .domainError) :
    (op = .div ∨ op = .mod) ∧ y.toNat = 0 := by
  cases op <;> simp [aluApply] at h <;> simp [h]

/-! ### What an instruction commits, and what it raises -/

/-- The working copy and the control action of an instruction that does not raise before its advance. -/
inductive Committed (s : State) : Instr → State → Action → Prop
  | alu (op : AluOp) (a b : Byte) (ra : Fin 8) (x v : Byte) (ha : a = regByte ra) (hop : op ≠ .cmp)
      (hx : (∃ rb, b = regByte rb ∧ x = s.readReg rb) ∨ op.mnemonic.operandCount = 1)
      (hv : aluApply op (s.readReg ra) x = .write v) :
      Committed s (op.instr a b) (s.writeReg ra v) .advance
  | cmp (ra rb : Fin 8) :
      Committed s (.cmp (regByte ra) (regByte rb)) { s with flags := compareFlags (s.readReg ra) (s.readReg rb) } .advance
  | ldi (ra : Fin 8) (imm : Byte) : Committed s (.ldi (regByte ra) imm) (s.writeReg ra imm) .advance
  | prn (ra : Fin 8) : Committed s (.prn (regByte ra)) { s with out := s.out ++ [s.readReg ra] } .advance
  | hlt : Committed s .hlt s .halt
  | push (ra : Fin 8) (h : s.sp.toNat + 1 ≤ 255) :
      Committed s (.push (regByte ra))
        { s.writeReg spIndex (s.sp + 1#8) with
          mem := s.mem.write (s.sp.toNat + 1) ((s.writeReg spIndex (s.sp + 1#8)).readReg ra) } .advance
  | popEmpty (ra : Fin 8) (h : s.sp = sentinel) (hp : s.config.underflowPolicy = .silent) :
      Committed s (.pop (regByte ra)) s .advance
  | pop (ra : Fin 8) (h : s.sp ≠ sentinel) (h0 : 0 < (s.writeReg ra (s.mem.read s.sp.toNat)).sp.toNat) :
      Committed s (.pop (regByte ra))
        ((s.writeReg ra (s.mem.read s.sp.toNat)).writeReg spIndex
          ((s.writeReg ra (s.mem.read s.sp.toNat)).sp - 1#8)) .advance
  | call (ra : Fin 8) (h : s.sp.toNat + 1 ≤ 255) (ret : Byte) (hr : (ret.toNat : Int) = s.pc.toNat + 2) :
      Committed s (.call (regByte ra))
        { s.writeReg spIndex (s.sp + 1#8) with mem := s.mem.write (s.sp.toNat + 1) ret }
        (.setPc ((s.writeReg spIndex (s.sp + 1#8)).readReg ra))
  | ret (h : s.sp ≠ sentinel) (h0 : 0 < s.sp.toNat) :
      Committed s .ret (s.writeReg spIndex (s.sp - 1#8)) (.setPc (s.mem.read s.sp.toNat))
  | jmp (ra : Fin 8) : Committed s (.jmp (regByte ra)) s (.setPc (s.readReg ra))
  | jeqTaken (ra : Fin 8) (h : s.flags.e = true) : Committed s (.jeq (regByte ra)) s (.setPc (s.readReg ra))
  | jeqNot (ra : Fin 8) (h : s.flags.e = false) (n : Byte) (hn : (n.toNat : Int) = s.pc.toNat + 2) :
      Committed s (.jeq (regByte ra)) s (.setPc n)
  | jneTaken (ra : Fin 8) (h : s.flags.e = false) : Committed s (.jne (regByte ra)) s (.setPc (s.readReg ra))
  | jneNot (ra : Fin 8) (h : s.flags.e = true) (n : Byte) (hn : (n.toNat : Int) = s.pc.toNat + 2) :
      Committed s (.jne (regByte ra)) s (.setPc n)

/-- Every error an instruction can raise, with the condition under which it does. -/
inductive RaisedBy (s : State) : Instr → Raised → Prop
  | register (i : Instr) (r : Byte) (h : 8 ≤ r.toNat) (hr : r ∈ i.registerOperands) : RaisedBy s i (.registerOutOfRange r)
  | zeroDivisor (op : AluOp) (ra rb : Fin 8) (hop : op = .div ∨ op = .mod) (h : (s.readReg rb).toNat = 0) :
      RaisedBy s (op.instr (regByte ra) (regByte rb)) .arithmeticDomain
  | pushTop (ra : Fin 8) (h : s.sp.toNat = 255) : RaisedBy s (.push (regByte ra)) (.memoryOutOfRange 256)
  | popEmpty (ra : Fin 8) (h : s.sp = sentinel) (hp : s.config.underflowPolicy = .fatal) :
      RaisedBy s (.pop (regByte ra)) .stackUnderflow
  | popBottom (ra : Fin 8) (h : s.sp ≠ sentinel) (h0 : (s.writeReg ra (s.mem.read s.sp.toNat)).sp.toNat = 0) :
      RaisedBy s (.pop (regByte ra)) (.memoryOutOfRange (-1))
  | callReturn (ra : Fin 8) (h : 255 < s.pc.toNat + 2) :
      RaisedBy s (.call (regByte ra)) (.memoryOutOfRange (s.pc.toNat + 2))
  | callTop (ra : Fin 8) (hp : s.pc.toNat + 2 ≤ 255) (h : s.sp.toNat = 255) :
      RaisedBy s (.call (regByte ra)) (.memoryOutOfRange 256)
  | retEmpty (h : s.sp = sentinel) : RaisedBy s .ret .stackUnderflow
  | retBottom (h : s.sp ≠ sentinel) (h0 : s.sp.toNat = 0) : RaisedBy s .ret (.memoryOutOfRange (-1))
  | jeqNot (ra : Fin 8) (he : s.flags.e = false) (h : 255 < s.pc.toNat + 2) :
      RaisedBy s (.jeq (regByte ra)) (.memoryOutOfRange (s.pc.toNat + 2))
  | jneNot (ra : Fin 8) (he : s.flags.e = true) (h : 255 < s.pc.toNat + 2) :
      RaisedBy s (.jne (regByte ra)) (.memoryOutOfRange (s.pc.toNat + 2))
  | advance (i : Instr) (w : State) (c : Committed s i w .advance)
      (h : 255 < s.pc.toNat + opCount (s.config.table.byteOf i.mnemonic) + 1) :
      RaisedBy s i (.memoryOutOfRange (s.pc.toNat + opCount (s.config.table.byteOf i.mnemonic) + 1))

/-- What `exec i s = .next t` leaves: the committed copy with its control action done, or the error entry. -/
def ExecResult (s : State) (i : Instr) (t : State) : Prop :=
  (∃ w act, Committed s i w act ∧ applyAction (s.config.table.byteOf i.mnemonic) w act = .ok t) ∨
  (∃ e, RaisedBy s i e ∧ t = s.takeError (s.config.table.byteOf i.mnemonic) e)

theorem Committed.keeps {s w : State} {i : Instr} {act : Action} (h : Committed s i w act) :
    w.config = s.config ∧ w.pc = s.pc ∧ w.status = s.status ∧ w.error = s.error := by
  cases h <;> exact ⟨rfl, rfl, rfl, rfl⟩

/-- An instruction's result from what its effect can be. -/
theorem execResult_of_transact (i : Instr) (s t : State) (r : Effect) (h : transact i.mnemonic s r = .next t)
    (hok : ∀ w act, r = .ok (w, act) → Committed s i w act) (herr : ∀ e, r = .error e → RaisedBy s i e) :
    ExecResult s i t := by
  rcases transact_cases i.mnemonic s r with ⟨w, act, w', h1, h2, h3⟩ | ⟨e, h1, h3⟩ <;> rw [h3] at h <;> cases h
  · exact .inl ⟨w, act, hok w act h1, h2⟩
  · refine .inr ⟨e, ?_, rfl⟩
    rcases h1 with h1 | ⟨w, act, h1, h2⟩
    · exact herr e h1
    · have c := hok w act h1
      obtain ⟨rfl, h4, rfl⟩ := applyAction_eq_error _ _ _ _ h2
      rw [c.keeps.2.1] at h4 ⊢
      exact .advance i w c h4

theorem resolve_raised (s : State) (i : Instr) (r : Byte) (e : Raised) (h : resolve r = .error e)
    (hr : r ∈ i.registerOperands) : RaisedBy s i e := by
  obtain ⟨rfl, h8⟩ := resolve_eq_error _ _ h
  exact .register i r h8 hr

theorem aluBinary_result (op : AluOp) (a b : Byte) (s t : State) (hb : op.mnemonic.operandCount = 2)
    (h : transact op.mnemonic s (aluBinary op a b s) = .next t) : ExecResult s (op.instr a b) t := by
  have hm : (op.instr a b).mnemonic = op.mnemonic := by cases op <;> rfl
  have hr : (op.instr a b).registerOperands = [a, b] := by
    cases op <;> first | rfl | (simp [AluOp.mnemonic, Mnemonic.operandCount, Mnemonic.format, Format.operandCount] at hb)
  rw [← hm] at h
  refine execResult_of_transact _ s t _ h (fun w act hw => ?_) (fun e he => ?_)
  · simp only [aluBinary, bind_eq_ok, pure_eq_ok] at hw
    obtain ⟨ra, h1, rb, h2, w', h3, h4⟩ := hw
    cases h4
    have ha := resolve_eq_ok _ _ h1
    have hb' := resolve_eq_ok _ _ h2
    cases hv : aluApply op (s.readReg ra) (s.readReg rb) with
    | write v =>
      simp only [hv, writeBack, Except.ok.injEq] at h3
      subst h3
      exact .alu op a b ra _ v ha (by rintro rfl; cases hv) (.inl ⟨rb, hb', rfl⟩) hv
    | flags f =>
      simp only [hv, writeBack, Except.ok.injEq] at h3
      subst h3
      obtain ⟨rfl, rfl⟩ := aluApply_eq_flags _ _ _ _ hv
      rw [ha, hb']
      exact .cmp ra rb
    | domainError => simp [hv, writeBack] at h3
  · simp only [aluBinary, bind_eq_error, pure_eq_error, and_false, exists_false, or_false] at he
    rcases he with he | ⟨ra, ha, he | ⟨rb, hb', he⟩⟩
    · exact resolve_raised s _ a e he (by simp [hr])
    · exact resolve_raised s _ b e he (by simp [hr])
    · cases hv : aluApply op (s.readReg ra) (s.readReg rb) <;> simp [hv, writeBack] at he
      subst he
      obtain ⟨h1, h2⟩ := aluApply_eq_domainError _ _ _ hv
      rw [resolve_eq_ok _ _ ha, resolve_eq_ok _ _ hb']
      exact .zeroDivisor op ra rb h1 h2

theorem aluUnary_result (op : AluOp) (a : Byte) (s t : State) (hu : op.mnemonic.operandCount = 1)
    (h : transact op.mnemonic s (aluUnary op a s) = .next t) : ExecResult s (op.instr a 0#8) t := by
  have hm : (op.instr a 0#8).mnemonic = op.mnemonic := by cases op <;> rfl
  have hr : (op.instr a 0#8).registerOperands = [a] := by
    cases op <;> first | rfl | (simp [AluOp.mnemonic, Mnemonic.operandCount, Mnemonic.format, Format.operandCount] at hu)
  have hdm : op ≠ .div ∧ op ≠ .mod ∧ op ≠ .cmp := by
    refine ⟨?_, ?_, ?_⟩ <;> rintro rfl <;> simp [AluOp.mnemonic, Mnemonic.operandCount, Mnemonic.format, Format.operandCount] at hu
  rw [← hm] at h
  refine execResult_of_transact _ s t _ h (fun w act hw => ?_) (fun e he => ?_)
  · simp only [aluUnary, bind_eq_ok, pure_eq_ok] at hw
    obtain ⟨ra, h1, w', h3, h4⟩ := hw
    cases h4
    cases hv : aluApply op (s.readReg ra) 0#8 with
    | write v =>
      simp only [hv, writeBack, Except.ok.injEq] at h3
      subst h3
      exact .alu op a _ ra _ v (resolve_eq_ok _ _ h1) hdm.2.2 (.inr hu) hv
    | flags f => exact absurd (aluApply_eq_flags _ _ _ _ hv).1 hdm.2.2
    | domainError => simp [hv, writeBack] at h3
  · simp only [aluUnary, bind_eq_error, pure_eq_error, and_false, exists_false, or_false] at he
    rcases he with he | ⟨ra, ha, he⟩
    · exact resolve_raised s _ a e he (by simp [hr])
    · cases hv : aluApply op (s.readReg ra) 0#8 <;> simp [hv, writeBack] at he
      rcases (aluApply_eq_domainError _ _ _ hv).1 with h | h
      · exact absurd h hdm.1
      · exact absurd h hdm.2.1

/-- The inversion of `exec`: what any instruction can do, guards included. -/
theorem exec_cases (i : Instr) (s t : State) (h : exec i s = .next t) : ExecResult s i t := by
  cases i with
  | add a b => exact aluBinary_result .add a b s t rfl h
  | sub a b => exact aluBinary_result .sub a b s t rfl h
  | mul a b => exact aluBinary_result .mul a b s t rfl h
  | div a b => exact aluBinary_result .div a b s t rfl h
  | mod a b => exact aluBinary_result .mod a b s t rfl h
  | and a b => exact aluBinary_result .and a b s t rfl h
  | or a b => exact aluBinary_result .or a b s t rfl h
  | xor a b => exact aluBinary_result .xor a b s t rfl h
  | not a => exact aluUnary_result .not a s t rfl h
  | shl a b => exact aluBinary_result .shl a b s t rfl h
  | shr a b => exact aluBinary_result .shr a b s t rfl h
  | inc a => exact aluUnary_result .inc a s t rfl h
  | dec a => exact aluUnary_result .dec a s t rfl h
  | cmp a b => exact aluBinary_result .cmp a b s t rfl h
  | ldi a imm =>
    refine execResult_of_transact _ s t _ h (fun w act hw => ?_) (fun e he => ?_)
    · simp only [bind_eq_ok, pure_eq_ok] at hw
      obtain ⟨ra, h1, h2⟩ := hw
      cases h2
      rw [resolve_eq_ok _ _ h1]
      exact .ldi ra imm
    · simp only [bind_eq_error, pure_eq_error, and_false, exists_false, or_false] at he
      exact resolve_raised s _ a e he (.head _)
  | prn a =>
    refine execResult_of_transact _ s t _ h (fun w act hw => ?_) (fun e he => ?_)
    · simp only [bind_eq_ok, pure_eq_ok] at hw
      obtain ⟨ra, h1, h2⟩ := hw
      cases h2
      rw [resolve_eq_ok _ _ h1]
      exact .prn ra
    · simp only [bind_eq_error, pure_eq_error, and_false, exists_false, or_false] at he
      exact resolve_raised s _ a e he (.head _)
  | hlt =>
    refine execResult_of_transact .hlt s t (.ok (s, .halt)) h (fun w act hw => ?_) (fun e he => ?_)
    · cases hw
      exact .hlt
    · cases he
  | push a =>
    refine execResult_of_transact _ s t _ h (fun w act hw => ?_) (fun e he => ?_)
    · simp only [bind_eq_ok, pure_eq_ok] at hw
      obtain ⟨ra, h1, w', h2, h3⟩ := hw
      cases h3
      obtain ⟨h4, rfl⟩ := pushByte_eq_ok _ _ _ h2
      rw [resolve_eq_ok _ _ h1]
      exact .push ra h4
    · simp only [bind_eq_error, pure_eq_error, and_false, exists_false, or_false] at he
      rcases he with he | ⟨ra, h1, he⟩
      · exact resolve_raised s _ a e he (.head _)
      · obtain ⟨h5, rfl⟩ := pushByte_eq_error _ _ _ he
        rw [resolve_eq_ok _ _ h1]
        exact .pushTop ra h5
  | pop a =>
    refine execResult_of_transact _ s t _ h (fun w act hw => ?_) (fun e he => ?_)
    · simp only [bind_eq_ok] at hw
      obtain ⟨ra, h1, h2⟩ := hw
      rw [resolve_eq_ok _ _ h1]
      split at h2
      · next hs =>
        split at h2
        · cases h2
        · next hp =>
          cases h2
          exact .popEmpty ra hs hp
      · next hs =>
        simp only [memRead_toNat, bind_eq_ok, pure_eq_ok] at h2
        obtain ⟨v, hv, w', hw, h3⟩ := h2
        cases hv
        cases h3
        obtain ⟨h0, rfl⟩ := decrementSp_eq_ok _ _ hw
        exact .pop ra hs h0
    · simp only [bind_eq_error] at he
      rcases he with he | ⟨ra, h1, he⟩
      · exact resolve_raised s _ a e he (.head _)
      · rw [resolve_eq_ok _ _ h1]
        split at he
        · next hs =>
          split at he
          · next hp =>
            cases he
            exact .popEmpty ra hs hp
          · cases he
        · next hs =>
          simp only [memRead_toNat, bind_eq_error, pure_eq_error, and_false, exists_false, or_false, reduceCtorEq,
            false_or] at he
          obtain ⟨v, hv, he⟩ := he
          cases hv
          obtain ⟨h0, rfl⟩ := decrementSp_eq_error _ _ he
          exact .popBottom ra hs h0
  | call a =>
    refine execResult_of_transact _ s t _ h (fun w act hw => ?_) (fun e he => ?_)
    · simp only [bind_eq_ok, pure_eq_ok] at hw
      obtain ⟨ra, h1, ret, h2, w', h3, h4⟩ := hw
      cases h4
      obtain ⟨h4, rfl⟩ := pushByte_eq_ok _ _ _ h3
      rw [resolve_eq_ok _ _ h1]
      exact .call ra h4 ret (checkAddr_eq_ok _ _ h2)
    · simp only [bind_eq_error, pure_eq_error, and_false, exists_false, or_false] at he
      rcases he with he | ⟨ra, h1, he | ⟨ret, h2, he⟩⟩
      · exact resolve_raised s _ a e he (.head _)
      · obtain ⟨rfl, h3⟩ := checkAddr_eq_error _ _ he
        rw [resolve_eq_ok _ _ h1]
        exact .callReturn ra (by omega)
      · obtain ⟨h5, rfl⟩ := pushByte_eq_error _ _ _ he
        have h3 := checkAddr_eq_ok _ _ h2
        have h4 := ret.isLt
        rw [resolve_eq_ok _ _ h1]
        exact .callTop ra (by omega) h5
  | ret =>
    refine execResult_of_transact .ret s t _ h (fun w act hw => ?_) (fun e he => ?_)
    · split at hw
      · cases hw
      · next hs =>
        simp only [memRead_toNat, bind_eq_ok, pure_eq_ok] at hw
        obtain ⟨v, hv, w', hw, h3⟩ := hw
        cases hv
        cases h3
        obtain ⟨h0, rfl⟩ := decrementSp_eq_ok _ _ hw
        exact .ret hs h0
    · split at he
      · next hs =>
        cases he
        exact .retEmpty hs
      · next hs =>
        simp only [memRead_toNat, bind_eq_error, pure_eq_error, and_false, exists_false, or_false, reduceCtorEq,
          false_or] at he
        obtain ⟨v, hv, he⟩ := he
        obtain ⟨h0, rfl⟩ := decrementSp_eq_error _ _ he
        exact .retBottom hs h0
  | jmp a =>
    refine execResult_of_transact _ s t _ h (fun w act hw => ?_) (fun e he => ?_)
    · simp only [bind_eq_ok, pure_eq_ok] at hw
      obtain ⟨ra, h1, h2⟩ := hw
      cases h2
      rw [resolve_eq_ok _ _ h1]
      exact .jmp ra
    · simp only [bind_eq_error, pure_eq_error, and_false, exists_false, or_false] at he
      exact resolve_raised s _ a e he (.head _)
  | jeq a =>
    refine execResult_of_transact (.jeq a) s t (branchIf s.flags.e a s) h (fun w act hw => ?_) (fun e he => ?_)
    · simp only [branchIf, bind_eq_ok] at hw
      obtain ⟨ra, h1, h2⟩ := hw
      rw [resolve_eq_ok _ _ h1]
      split at h2
      · next hf =>
        cases h2
        exact .jeqTaken ra hf
      · next hf =>
        simp only [bind_eq_ok, pure_eq_ok] at h2
        obtain ⟨n, hn, h3⟩ := h2
        cases h3
        exact .jeqNot ra (by simpa using hf) _ (checkAddr_eq_ok _ _ hn)
    · simp only [branchIf, bind_eq_error] at he
      rcases he with he | ⟨ra, h1, he⟩
      · exact resolve_raised s _ a e he (.head _)
      · rw [resolve_eq_ok _ _ h1]
        split at he
        · simp [pure_eq_error] at he
        · next hf =>
          simp only [bind_eq_error, pure_eq_error, and_false, exists_false, or_false] at he
          obtain ⟨rfl, h3⟩ := checkAddr_eq_error _ _ he
          exact .jeqNot ra (by simpa using hf) (by omega)
  | jne a =>
    refine execResult_of_transact (.jne a) s t (branchIf (!s.flags.e) a s) h (fun w act hw => ?_) (fun e he => ?_)
    · simp only [branchIf, bind_eq_ok] at hw
      obtain ⟨ra, h1, h2⟩ := hw
      rw [resolve_eq_ok _ _ h1]
      split at h2
      · next hf =>
        cases h2
        exact .jneTaken ra (by simpa using hf)
      · next hf =>
        simp only [bind_eq_ok, pure_eq_ok] at h2
        obtain ⟨n, hn, h3⟩ := h2
        cases h3
        exact .jneNot ra (by simpa using hf) _ (checkAddr_eq_ok _ _ hn)
    · simp only [branchIf, bind_eq_error] at he
      rcases he with he | ⟨ra, h1, he⟩
      · exact resolve_raised s _ a e he (.head _)
      · rw [resolve_eq_ok _ _ h1]
        split at he
        · simp [pure_eq_error] at he
        · next hf =>
          simp only [bind_eq_error, pure_eq_error, and_false, exists_false, or_false] at he
          obtain ⟨rfl, h3⟩ := checkAddr_eq_error _ _ he
          exact .jneNot ra (by simpa using hf) (by omega)

/-- The inversion of `step`, under any table: an instruction's result, or an error entry made by the fetch. -/
theorem step_inv (s t : State) (h : step s = .next t) :
    s.status = .running ∧
    ((∃ i, fetch s = .ok i ∧ s.config.table.byteOf i.mnemonic = s.mem.read s.pc.toNat ∧ exec i s = .next t) ∨
     (∃ e, fetch s = .error (.raised (s.mem.read s.pc.toNat) e) ∧ t = s.takeError (s.mem.read s.pc.toNat) e)) := by
  simp only [step] at h
  split at h
  · cases h
  · next hr =>
    refine ⟨hr, ?_⟩
    split at h
    · next i hi => exact .inl ⟨i, hi, (fetch_opcode s).1 i hi, h⟩
    · next op e hf =>
      cases h
      have := (fetch_opcode s).2 op e hf
      subst this
      exact .inr ⟨e, hf, rfl⟩
    · cases h

end Sys2Proof.Machine
end

