-- ==== Sys2Proof/Laws/Host.lean ====
section
/-! SUPPORT. The budgeted run one transition at a time, and the lines of a text. -/

namespace Sys2Proof.Machine

@[simp] theorem runFuel_zero (s : State) : runFuel 0 s = .next s := rfl

/-- A Halted machine stays as it is under any budget. -/
theorem runFuel_halted (k : Nat) (s : State) (h : s.status = .halted) : runFuel k s = .next s := by
  cases k <;> simp [runFuel, h]

/-- One transition, then the rest of the budget. -/
theorem runFuel_succ (k : Nat) (s t : State) (h : step s = .next t) : runFuel (k + 1) s = runFuel k t := by
  cases hs : s.status with
  | running => simp [runFuel, hs, h]
  | halted => simp [step, hs] at h

@[simp] theorem fuelAllows_steps (k n : Nat) : fuelAllows (.steps k) n = (n ≤ k) := rfl
@[simp] theorem fuelAllows_unbounded (n : Nat) : fuelAllows .unbounded n = True := rfl

/-- A text with no line end is one line. -/
theorem splitLines_line (line : List Char) (h : '\n' ∉ line) : splitLines line = [line] := by
  induction line with
  | nil => rfl
  | cons c rest ih =>
    have hc : ¬ c = '\n' := fun e => h (by simp [e])
    simp only [splitLines, hc, if_false, ih (fun e => h (by simp [e]))]

/-- A text is cut at its first line end. -/
theorem splitLines_append (line text : List Char) (h : '\n' ∉ line) :
    splitLines (line ++ '\n' :: text) = line :: splitLines text := by
  induction line with
  | nil => simp [splitLines]
  | cons c rest ih =>
    have hc : ¬ c = '\n' := fun e => h (by simp [e])
    simp only [List.cons_append, splitLines, hc, if_false, ih (fun e => h (by simp [e]))]

end Sys2Proof.Machine
end

