-- ==== Sys2Proof/Laws/PerInstr.lean ====
section
/-! SUPPORT. Statements about every instruction as syntax, one lemma per constructor: an instruction has the operand
bytes its format says (`30_encoding.md` R56), and its mnemonic's constructor takes exactly these. -/

namespace Sys2Proof.Laws.OperandBytes

/-- The number of operand bytes is the format's, and the mnemonic builds the instruction back from them. -/
def Statement (i : Instr) : Prop :=
  i.operands.length = i.mnemonic.operandCount ∧ ∀ rest, i.mnemonic.build (i.operands ++ rest) = some (i, rest)

theorem add (a b : Byte) : Statement (.add a b) := ⟨rfl, fun _ => rfl⟩
theorem sub (a b : Byte) : Statement (.sub a b) := ⟨rfl, fun _ => rfl⟩
theorem mul (a b : Byte) : Statement (.mul a b) := ⟨rfl, fun _ => rfl⟩
theorem div (a b : Byte) : Statement (.div a b) := ⟨rfl, fun _ => rfl⟩
theorem mod (a b : Byte) : Statement (.mod a b) := ⟨rfl, fun _ => rfl⟩
theorem and (a b : Byte) : Statement (.and a b) := ⟨rfl, fun _ => rfl⟩
theorem or (a b : Byte) : Statement (.or a b) := ⟨rfl, fun _ => rfl⟩
theorem xor (a b : Byte) : Statement (.xor a b) := ⟨rfl, fun _ => rfl⟩
theorem not (a : Byte) : Statement (.not a) := ⟨rfl, fun _ => rfl⟩
theorem shl (a b : Byte) : Statement (.shl a b) := ⟨rfl, fun _ => rfl⟩
theorem shr (a b : Byte) : Statement (.shr a b) := ⟨rfl, fun _ => rfl⟩
theorem inc (a : Byte) : Statement (.inc a) := ⟨rfl, fun _ => rfl⟩
theorem dec (a : Byte) : Statement (.dec a) := ⟨rfl, fun _ => rfl⟩
theorem cmp (a b : Byte) : Statement (.cmp a b) := ⟨rfl, fun _ => rfl⟩
theorem ldi (a imm : Byte) : Statement (.ldi a imm) := ⟨rfl, fun _ => rfl⟩
theorem prn (a : Byte) : Statement (.prn a) := ⟨rfl, fun _ => rfl⟩
theorem hlt : Statement .hlt := ⟨rfl, fun _ => rfl⟩
theorem push (a : Byte) : Statement (.push a) := ⟨rfl, fun _ => rfl⟩
theorem pop (a : Byte) : Statement (.pop a) := ⟨rfl, fun _ => rfl⟩
theorem call (a : Byte) : Statement (.call a) := ⟨rfl, fun _ => rfl⟩
theorem ret : Statement .ret := ⟨rfl, fun _ => rfl⟩
theorem jmp (a : Byte) : Statement (.jmp a) := ⟨rfl, fun _ => rfl⟩
theorem jeq (a : Byte) : Statement (.jeq a) := ⟨rfl, fun _ => rfl⟩
theorem jne (a : Byte) : Statement (.jne a) := ⟨rfl, fun _ => rfl⟩

end Sys2Proof.Laws.OperandBytes
end

