-- ==== Sys2Proof/Tests/Slice0.lean ====
section
/-! SUPPORT. The model's own tests: the WellFormed smoke, a decode test for each constructor from a word written out bit
by bit (`30_encoding.md` R60), one or two one-step tests for each instruction with expected results from the spec's
vectors (`95_test_vectors.md`), and for each obligation with hypotheses a concrete state and operands that meet them. -/

namespace Sys2Proof.Tests

open Sys2Proof Sys2Proof.Machine Sys2Proof.Claims

/-- The reset machine with its PC moved, and bytes placed at it. -/
def at_ (pc : Byte) (bytes : List Byte) : State := placeAtPc { State.reset with pc := pc } bytes

/-- Registers set, in order. -/
def regs (s : State) (l : List (Fin 8 × Byte)) : State := l.foldl (fun s p => s.writeReg p.1 p.2) s

/-- One memory byte set. -/
def cell (s : State) (a : Nat) (v : Byte) : State := { s with mem := s.mem.write a v }

def flagsSet (s : State) (l g e : Bool) : State := { s with flags := { l := l, g := g, e := e } }

/-- The same machine under the fatal underflow policy. -/
def fatalPolicy (s : State) : State := { s with config := { s.config with underflowPolicy := .fatal } }

/-- The same machine that always fetches two operand bytes. -/
def fetchTwo (s : State) : State := { s with config := { s.config with operandFetch := .alwaysTwo } }

/-- The outcome is a next state that meets `p`. -/
def answers (o : Host.Outcome State Fault Refusal) (p : State → Bool) : Bool :=
  match o with
  | .next t => p t
  | .fault _ => false
  | .refused _ => false

theorem answers_next (o : Host.Outcome State Fault Refusal) (p : State → Bool) (h : answers o p = true) :
    ∃ t, o = .next t ∧ p t = true := by
  cases o with
  | next t => exact ⟨t, rfl, h⟩
  | fault r => exact absurd h (by simp [answers])
  | refused r => exact absurd h (by simp [answers])

/-- The step's next state is `t`. -/
def stepsTo (s t : State) : Bool := answers (step s) fun u => decide (u = t)

/-- The step raises: the error entry is the next state. -/
def stepRaises (s : State) (k : ErrorKind) (d : Option Int) : Bool :=
  stepsTo s (errorEntry s (s.mem.read s.pc.toNat) k d)

/-! ### WellFormed: an ill-formed term for each check -/

theorem test_wf_add : Instr.wf (.add 7#8 7#8) = true ∧ Instr.wf (.add 8#8 0#8) = false ∧ Instr.wf (.add 0#8 8#8) = false := by decide
theorem test_wf_sub : Instr.wf (.sub 7#8 7#8) = true ∧ Instr.wf (.sub 8#8 0#8) = false ∧ Instr.wf (.sub 0#8 8#8) = false := by decide
theorem test_wf_mul : Instr.wf (.mul 7#8 7#8) = true ∧ Instr.wf (.mul 8#8 0#8) = false ∧ Instr.wf (.mul 0#8 8#8) = false := by decide
theorem test_wf_div : Instr.wf (.div 7#8 7#8) = true ∧ Instr.wf (.div 8#8 0#8) = false ∧ Instr.wf (.div 0#8 8#8) = false := by decide
theorem test_wf_mod : Instr.wf (.mod 7#8 7#8) = true ∧ Instr.wf (.mod 8#8 0#8) = false ∧ Instr.wf (.mod 0#8 8#8) = false := by decide
theorem test_wf_and : Instr.wf (.and 7#8 7#8) = true ∧ Instr.wf (.and 8#8 0#8) = false ∧ Instr.wf (.and 0#8 8#8) = false := by decide
theorem test_wf_or : Instr.wf (.or 7#8 7#8) = true ∧ Instr.wf (.or 8#8 0#8) = false ∧ Instr.wf (.or 0#8 8#8) = false := by decide
theorem test_wf_xor : Instr.wf (.xor 7#8 7#8) = true ∧ Instr.wf (.xor 8#8 0#8) = false ∧ Instr.wf (.xor 0#8 8#8) = false := by decide
theorem test_wf_shl : Instr.wf (.shl 7#8 7#8) = true ∧ Instr.wf (.shl 8#8 0#8) = false ∧ Instr.wf (.shl 0#8 8#8) = false := by decide
theorem test_wf_shr : Instr.wf (.shr 7#8 7#8) = true ∧ Instr.wf (.shr 8#8 0#8) = false ∧ Instr.wf (.shr 0#8 8#8) = false := by decide
theorem test_wf_cmp : Instr.wf (.cmp 7#8 7#8) = true ∧ Instr.wf (.cmp 8#8 0#8) = false ∧ Instr.wf (.cmp 0#8 8#8) = false := by decide
theorem test_wf_not : Instr.wf (.not 7#8) = true ∧ Instr.wf (.not 8#8) = false := by decide
theorem test_wf_inc : Instr.wf (.inc 7#8) = true ∧ Instr.wf (.inc 8#8) = false := by decide
theorem test_wf_dec : Instr.wf (.dec 7#8) = true ∧ Instr.wf (.dec 8#8) = false := by decide
theorem test_wf_prn : Instr.wf (.prn 7#8) = true ∧ Instr.wf (.prn 8#8) = false := by decide
theorem test_wf_push : Instr.wf (.push 7#8) = true ∧ Instr.wf (.push 8#8) = false := by decide
theorem test_wf_pop : Instr.wf (.pop 7#8) = true ∧ Instr.wf (.pop 8#8) = false := by decide
theorem test_wf_call : Instr.wf (.call 7#8) = true ∧ Instr.wf (.call 8#8) = false := by decide
theorem test_wf_jmp : Instr.wf (.jmp 7#8) = true ∧ Instr.wf (.jmp 8#8) = false := by decide
theorem test_wf_jeq : Instr.wf (.jeq 7#8) = true ∧ Instr.wf (.jeq 8#8) = false := by decide
theorem test_wf_jne : Instr.wf (.jne 7#8) = true ∧ Instr.wf (.jne 8#8) = false := by decide
theorem test_wf_ldi : Instr.wf (.ldi 7#8 255#8) = true ∧ Instr.wf (.ldi 8#8 0#8) = false := by decide
theorem test_wf_no_operand : Instr.wf .hlt = true ∧ Instr.wf .ret = true := by decide

/-! ### Decode: words written out from the encodings of `30_encoding.md` R60, operand bytes above the opcode byte -/

theorem test_decode_add : decodeTableWord 24 0b000001100000001110100000 = some (.add 3#8 6#8) := by decide
theorem test_decode_sub : decodeTableWord 24 0b000001100000001110100001 = some (.sub 3#8 6#8) := by decide
theorem test_decode_mul : decodeTableWord 24 0b000001100000001110100010 = some (.mul 3#8 6#8) := by decide
theorem test_decode_div : decodeTableWord 24 0b000001100000001110100011 = some (.div 3#8 6#8) := by decide
theorem test_decode_mod : decodeTableWord 24 0b000001100000001110100100 = some (.mod 3#8 6#8) := by decide
theorem test_decode_and : decodeTableWord 24 0b000001100000001110101000 = some (.and 3#8 6#8) := by decide
theorem test_decode_or : decodeTableWord 24 0b000001100000001110101010 = some (.or 3#8 6#8) := by decide
theorem test_decode_xor : decodeTableWord 24 0b000001100000001110101011 = some (.xor 3#8 6#8) := by decide
theorem test_decode_not : decodeTableWord 16 0b0000010101101001 = some (.not 5#8) := by decide
theorem test_decode_shl : decodeTableWord 24 0b000001100000001110101100 = some (.shl 3#8 6#8) := by decide
theorem test_decode_shr : decodeTableWord 24 0b000001100000001110101101 = some (.shr 3#8 6#8) := by decide
theorem test_decode_inc : decodeTableWord 16 0b0000010101100101 = some (.inc 5#8) := by decide
theorem test_decode_dec : decodeTableWord 16 0b0000010101100110 = some (.dec 5#8) := by decide
theorem test_decode_cmp : decodeTableWord 24 0b000001100000001110100111 = some (.cmp 3#8 6#8) := by decide
theorem test_decode_ldi : decodeTableWord 24 0b100000010000001010000010 = some (.ldi 2#8 129#8) := by decide
theorem test_decode_prn : decodeTableWord 16 0b0000010101000111 = some (.prn 5#8) := by decide
theorem test_decode_hlt : decodeTableWord 8 0b00000001 = some .hlt := by decide
theorem test_decode_push : decodeTableWord 16 0b0000010101000101 = some (.push 5#8) := by decide
theorem test_decode_pop : decodeTableWord 16 0b0000010101000110 = some (.pop 5#8) := by decide
theorem test_decode_call : decodeTableWord 16 0b0000010101010000 = some (.call 5#8) := by decide
theorem test_decode_ret : decodeTableWord 8 0b00010001 = some .ret := by decide
theorem test_decode_jmp : decodeTableWord 16 0b0000010101010100 = some (.jmp 5#8) := by decide
theorem test_decode_jeq : decodeTableWord 16 0b0000010101010101 = some (.jeq 5#8) := by decide
theorem test_decode_jne : decodeTableWord 16 0b0000010101010110 = some (.jne 5#8) := by decide
/-- The length bits and the ALU bit of neighbouring bytes: 0xE5 and 0x25 are not INC, 0x57 is no instruction (R62). -/
theorem test_decode_refuses : decodeTableWord 24 0xE5 = none ∧ decodeTableWord 16 0x25 = none ∧ decodeTableWord 16 0x57 = none := by
  decide
/-- Bytes that end before the operands (R50). -/
theorem test_decode_missing : decode OpcodeTable.default [0xA0#8, 1#8] = .error (.missingOperand .add) := rfl
theorem test_decode_no_bytes : decode OpcodeTable.default [] = .error .noBytes := rfl

/-! ### One step of each instruction (expected results: 95_test_vectors.md, L2 vectors) -/

theorem test_add_wraps :
    stepsTo (regs (at_ 16#8 [160#8, 0#8, 1#8]) [(0, 200#8), (1, 100#8)]) { (regs (at_ 16#8 [160#8, 0#8, 1#8]) [(0, 200#8), (1, 100#8)]).writeReg 0 44#8 with pc := 19#8 } = true := by decide
theorem test_add_second_operand : stepRaises (at_ 16#8 [0xA0#8, 0#8, 8#8]) .registerOutOfRange (some 8) = true := by decide
theorem test_sub_borrows :
    stepsTo (regs (at_ 16#8 [161#8, 0#8, 1#8]) [(0, 3#8), (1, 5#8)]) { (regs (at_ 16#8 [161#8, 0#8, 1#8]) [(0, 3#8), (1, 5#8)]).writeReg 0 254#8 with pc := 19#8 } = true := by decide
theorem test_sub_same_register :
    stepsTo (regs (at_ 16#8 [0xA1#8, 2#8, 2#8]) [(2, 77#8)]) { (regs (at_ 16#8 [0xA1#8, 2#8, 2#8]) [(2, 77#8)]).writeReg 2 0#8 with pc := 19#8 } = true := by decide
theorem test_mul :
    stepsTo (regs (at_ 16#8 [162#8, 0#8, 1#8]) [(0, 8#8), (1, 9#8)]) { (regs (at_ 16#8 [162#8, 0#8, 1#8]) [(0, 8#8), (1, 9#8)]).writeReg 0 72#8 with pc := 19#8 } = true := by decide
theorem test_mul_wraps :
    stepsTo (regs (at_ 16#8 [162#8, 0#8, 1#8]) [(0, 255#8), (1, 255#8)]) { (regs (at_ 16#8 [162#8, 0#8, 1#8]) [(0, 255#8), (1, 255#8)]).writeReg 0 1#8 with pc := 19#8 } = true := by decide
theorem test_div_floors :
    stepsTo (regs (at_ 16#8 [163#8, 0#8, 1#8]) [(0, 7#8), (1, 2#8)]) { (regs (at_ 16#8 [163#8, 0#8, 1#8]) [(0, 7#8), (1, 2#8)]).writeReg 0 3#8 with pc := 19#8 } = true := by decide
theorem test_div_by_zero : stepRaises (regs (at_ 16#8 [0xA3#8, 0#8, 1#8]) [(0, 7#8)]) .arithmeticDomain none = true := by decide
theorem test_mod :
    stepsTo (regs (at_ 16#8 [164#8, 0#8, 1#8]) [(0, 7#8), (1, 3#8)]) { (regs (at_ 16#8 [164#8, 0#8, 1#8]) [(0, 7#8), (1, 3#8)]).writeReg 0 1#8 with pc := 19#8 } = true := by decide
theorem test_mod_by_zero : stepRaises (regs (at_ 16#8 [0xA4#8, 0#8, 1#8]) [(0, 5#8)]) .arithmeticDomain none = true := by decide
theorem test_and :
    stepsTo (regs (at_ 16#8 [168#8, 0#8, 1#8]) [(0, 204#8), (1, 170#8)]) { (regs (at_ 16#8 [168#8, 0#8, 1#8]) [(0, 204#8), (1, 170#8)]).writeReg 0 136#8 with pc := 19#8 } = true := by decide
theorem test_or :
    stepsTo (regs (at_ 16#8 [170#8, 0#8, 1#8]) [(0, 204#8), (1, 170#8)]) { (regs (at_ 16#8 [170#8, 0#8, 1#8]) [(0, 204#8), (1, 170#8)]).writeReg 0 238#8 with pc := 19#8 } = true := by decide
theorem test_xor :
    stepsTo (regs (at_ 16#8 [171#8, 0#8, 1#8]) [(0, 204#8), (1, 170#8)]) { (regs (at_ 16#8 [171#8, 0#8, 1#8]) [(0, 204#8), (1, 170#8)]).writeReg 0 102#8 with pc := 19#8 } = true := by decide
theorem test_not :
    stepsTo (regs (at_ 16#8 [105#8, 2#8]) [(2, 170#8)]) { (regs (at_ 16#8 [105#8, 2#8]) [(2, 170#8)]).writeReg 2 85#8 with pc := 18#8 } = true := by decide
theorem test_not_at_top :
    stepsTo (regs (at_ 253#8 [0x69#8, 0#8]) [(0, 1#8)]) { (regs (at_ 253#8 [0x69#8, 0#8]) [(0, 1#8)]).writeReg 0 254#8 with pc := 255#8 } = true := by decide
theorem test_shl :
    stepsTo (regs (at_ 16#8 [172#8, 0#8, 1#8]) [(0, 129#8), (1, 1#8)]) { (regs (at_ 16#8 [172#8, 0#8, 1#8]) [(0, 129#8), (1, 1#8)]).writeReg 0 2#8 with pc := 19#8 } = true := by decide
theorem test_shl_by_eight :
    stepsTo (regs (at_ 16#8 [172#8, 0#8, 1#8]) [(0, 255#8), (1, 8#8)]) { (regs (at_ 16#8 [172#8, 0#8, 1#8]) [(0, 255#8), (1, 8#8)]).writeReg 0 0#8 with pc := 19#8 } = true := by decide
theorem test_shr :
    stepsTo (regs (at_ 16#8 [173#8, 0#8, 1#8]) [(0, 128#8), (1, 1#8)]) { (regs (at_ 16#8 [173#8, 0#8, 1#8]) [(0, 128#8), (1, 1#8)]).writeReg 0 64#8 with pc := 19#8 } = true := by decide
theorem test_shr_by_200 :
    stepsTo (regs (at_ 16#8 [173#8, 0#8, 1#8]) [(0, 255#8), (1, 200#8)]) { (regs (at_ 16#8 [173#8, 0#8, 1#8]) [(0, 255#8), (1, 200#8)]).writeReg 0 0#8 with pc := 19#8 } = true := by decide
theorem test_inc_wraps :
    stepsTo (regs (at_ 16#8 [101#8, 2#8]) [(2, 255#8)]) { (regs (at_ 16#8 [101#8, 2#8]) [(2, 255#8)]).writeReg 2 0#8 with pc := 18#8 } = true := by decide
theorem test_dec_wraps :
    stepsTo (regs (at_ 16#8 [102#8, 2#8]) [(2, 0#8)]) { (regs (at_ 16#8 [102#8, 2#8]) [(2, 0#8)]).writeReg 2 255#8 with pc := 18#8 } = true := by decide
theorem test_cmp_is_unsigned :
    stepsTo (regs (at_ 16#8 [0xA7#8, 0#8, 1#8]) [(0, 200#8), (1, 100#8)]) { flagsSet (regs (at_ 16#8 [0xA7#8, 0#8, 1#8]) [(0, 200#8), (1, 100#8)]) false true false with pc := 19#8 } = true := by decide
theorem test_cmp_clears_others :
    stepsTo (flagsSet (regs (at_ 16#8 [0xA7#8, 0#8, 1#8]) [(0, 9#8), (1, 9#8)]) true false false) { flagsSet (flagsSet (regs (at_ 16#8 [0xA7#8, 0#8, 1#8]) [(0, 9#8), (1, 9#8)]) true false false) false false true with pc := 19#8 } = true := by decide
theorem test_ldi :
    stepsTo (at_ 16#8 [0x82#8, 0#8, 200#8]) { (at_ 16#8 [0x82#8, 0#8, 200#8]).writeReg 0 200#8 with pc := 19#8 } = true := by decide
theorem test_ldi_sp :
    stepsTo (at_ 16#8 [0x82#8, 7#8, 16#8]) { (at_ 16#8 [0x82#8, 7#8, 16#8]).writeReg 7 16#8 with pc := 19#8 } = true := by decide
theorem test_prn :
    stepsTo (regs (at_ 16#8 [0x47#8, 0#8]) [(0, 200#8)]) { regs (at_ 16#8 [0x47#8, 0#8]) [(0, 200#8)] with out := [200#8], pc := 18#8 } = true := by decide
theorem test_prn_at_top : stepRaises (at_ 254#8 [0x47#8, 0#8]) .memoryOutOfRange (some 256) = true := by decide
theorem test_hlt_at_top :
    stepsTo (at_ 255#8 [0x01#8]) { at_ 255#8 [0x01#8] with status := .halted } = true := by decide
theorem test_push :
    stepsTo (regs (at_ 16#8 [0x45#8, 2#8]) [(2, 5#8)]) { cell ((regs (at_ 16#8 [0x45#8, 2#8]) [(2, 5#8)]).writeReg 7 0xF5#8) 0xF5 5#8 with pc := 18#8 } = true := by decide
theorem test_push_sp :
    stepsTo (at_ 16#8 [0x45#8, 7#8]) { cell ((at_ 16#8 [0x45#8, 7#8]).writeReg 7 0xF5#8) 0xF5 0xF5#8 with pc := 18#8 } = true := by decide
theorem test_pop :
    stepsTo (regs (cell (at_ 16#8 [0x46#8, 3#8]) 0xF5 5#8) [(7, 0xF5#8)]) { ((regs (cell (at_ 16#8 [0x46#8, 3#8]) 0xF5 5#8) [(7, 0xF5#8)]).writeReg 3 5#8).writeReg 7 0xF4#8 with pc := 18#8 } = true := by decide
theorem test_pop_sp :
    stepsTo (regs (cell (at_ 16#8 [0x46#8, 7#8]) 0xF5 0x20#8) [(7, 0xF5#8)]) { (regs (cell (at_ 16#8 [0x46#8, 7#8]) 0xF5 0x20#8) [(7, 0xF5#8)]).writeReg 7 0x1F#8 with pc := 18#8 } = true := by decide
theorem test_call :
    stepsTo (regs (at_ 4#8 [0x50#8, 1#8]) [(1, 0x10#8)]) { cell ((regs (at_ 4#8 [0x50#8, 1#8]) [(1, 0x10#8)]).writeReg 7 0xF5#8) 0xF5 6#8 with pc := 0x10#8 } = true := by decide
theorem test_call_sp :
    stepsTo (at_ 4#8 [0x50#8, 7#8]) { cell ((at_ 4#8 [0x50#8, 7#8]).writeReg 7 0xF5#8) 0xF5 6#8 with pc := 0xF5#8 } = true := by decide
theorem test_ret :
    stepsTo (regs (cell (at_ 0x20#8 [0x11#8]) 0xF5 6#8) [(7, 0xF5#8)]) { (regs (cell (at_ 0x20#8 [0x11#8]) 0xF5 6#8) [(7, 0xF5#8)]).writeReg 7 0xF4#8 with pc := 6#8 } = true := by decide
theorem test_ret_empty : stepRaises (at_ 0x20#8 [0x11#8]) .stackUnderflow none = true := by decide
theorem test_jmp_at_top :
    stepsTo (regs (at_ 254#8 [0x54#8, 2#8]) [(2, 0x20#8)]) { regs (at_ 254#8 [0x54#8, 2#8]) [(2, 0x20#8)] with pc := 0x20#8 } = true := by decide
theorem test_jeq_taken :
    stepsTo (flagsSet (regs (at_ 12#8 [0x55#8, 3#8]) [(3, 10#8)]) false false true) { flagsSet (regs (at_ 12#8 [0x55#8, 3#8]) [(3, 10#8)]) false false true with pc := 10#8 } = true := by decide
theorem test_jeq_not_taken :
    stepsTo (flagsSet (regs (at_ 12#8 [0x55#8, 3#8]) [(3, 10#8)]) true false false) { flagsSet (regs (at_ 12#8 [0x55#8, 3#8]) [(3, 10#8)]) true false false with pc := 14#8 } = true := by decide
theorem test_jne_taken :
    stepsTo (flagsSet (regs (at_ 12#8 [0x56#8, 3#8]) [(3, 10#8)]) false true false) { flagsSet (regs (at_ 12#8 [0x56#8, 3#8]) [(3, 10#8)]) false true false with pc := 10#8 } = true := by decide
theorem test_jne_not_taken :
    stepsTo (flagsSet (regs (at_ 12#8 [0x56#8, 3#8]) [(3, 10#8)]) false false true) { flagsSet (regs (at_ 12#8 [0x56#8, 3#8]) [(3, 10#8)]) false false true with pc := 14#8 } = true := by decide

/-! ### The transition, the load, the host's view -/

/-- A zero byte is no instruction (R62, R114). -/
theorem test_step_zero_byte : stepRaises State.reset .unsupportedOpcode none = true := by decide
/-- The fetch fails before the register operand is looked at (R120). -/
theorem test_step_fetch_before_register : stepRaises (at_ 254#8 [0xA0#8, 9#8]) .memoryOutOfRange (some 256) = true := by decide
/-- The word is placed at the PC and runs (log entry 4). -/
theorem test_step_fetch_word : stepsTo (State.reset.withFetchWord 24 0b000001110000000110000010)
    { (State.reset.withFetchWord 24 0b000001110000000110000010).writeReg 1 7#8 with pc := 3#8 } = true := by decide
/-- No step from Halted (R68). -/
theorem test_step_halted : step { State.reset with status := .halted } = .fault .halted := rfl
/-- 95_test_vectors.md's image text: comments and blank lines add nothing (R133). -/
theorem test_image_text : parseImage "# print\n10000010 # LDI\n00000000\n\n00001000\n".toList = some [0x82#8, 0#8, 8#8] := by decide
theorem test_image_text_malformed : parseImage "1000001".toList = none ∧ parseImage "100000102".toList = none := by decide
/-- The output is rendered in decimal, one value a line (R125). -/
theorem test_rendered_output : renderedOutput { State.reset with out := [0#8, 17#8, 255#8] } =
    ["0".toList, "17".toList, "255".toList] := by decide
/-- The trace view at the top of memory (R128, log entry 20). -/
theorem test_trace_view : (traceView .afterPc (at_ 254#8 [1#8, 2#8])).bytes = [some 2#8, none, none] := by decide
theorem test_observe_running : observe State.reset = none := rfl

/-! ### Witnesses: for each obligation with hypotheses, a state and operands that meet them together, one for each clause,
at a boundary of its range -/

theorem witness_DecodeOfEncodeIsInstruction :
    OpcodeTable.default.ok = true := by decide
theorem witness_DecodedBytesAreTheEncoding :
    decode OpcodeTable.default [0xA0#8, 255#8, 8#8, 9#8] = .ok (.add 255#8 8#8, [9#8]) := rfl
theorem witness_LengthIsKnownFromOpcodeByte :
    OpcodeTable.default.ok = true ∧ decode OpcodeTable.default [0x46#8, 3#8, 9#8] = .ok (.pop 3#8, [9#8]) := ⟨by decide, rfl⟩
theorem witness_DecodeIsExactMatchOfOpcodeByte :
    OpcodeTable.default.ok = true ∧ (∀ m, OpcodeTable.default.byteOf m ≠ 0xA5#8) ∧ OpcodeTable.default.byteOf .add = 0xA0#8 ∧
      Mnemonic.add.operandCount ≤ [1#8, 2#8].length := ⟨by decide, fun m => by cases m <;> decide, by decide, by decide⟩
theorem witness_UnsupportedBytesOfEveryTable :
    OpcodeTable.default.ok = true ∧ 192 ≤ (0xC0#8).toNat ∧ (0x30#8).getLsbD 5 = true ∧ (0x30#8).getLsbD 4 = true := by decide
theorem witness_LowBitsSelectTheAluOperation :
    OpcodeTable.default.ok = true ∧ (decodeByte OpcodeTable.default 0xA0#8).instr = some .add ∧ (0xA0#8).getLsbD 5 = true ∧
      Instr.mnemonic (.add 0#8 1#8) = .add ∧
      (decodeByte OpcodeTable.default 0x56#8).instr = some .jne ∧ (0x56#8).getLsbD 5 = false := by decide
theorem witness_StepRunsDecodedInstruction_byCount :
    (at_ 253#8 [0xA0#8, 0#8, 1#8]).status = .running ∧
      decode OpcodeTable.default (bytesAt (at_ 253#8 [0xA0#8, 0#8, 1#8]) 3) = .ok (.add 0#8 1#8, []) ∧
      decode OpcodeTable.default (bytesAt (at_ 255#8 [0x01#8]) 3) = .ok (.hlt, []) ∧
      (at_ 255#8 [0x01#8]).config.operandFetch ≠ .alwaysTwo := ⟨rfl, rfl, rfl, by decide⟩
theorem witness_StepRunsDecodedInstruction_alwaysTwo :
    (fetchTwo (at_ 253#8 [0x01#8])).config.operandFetch = .alwaysTwo ∧
      decode OpcodeTable.default (bytesAt (fetchTwo (at_ 253#8 [0x01#8])) 3) = .ok (.hlt, [0#8, 0#8]) ∧
      (fetchTwo (at_ 253#8 [0x01#8])).pc.toNat + 2 ≤ 255 := ⟨rfl, rfl, by decide⟩
theorem witness_UnsupportedOpcodeIsFatal :
    (at_ 255#8 [0xFF#8]).status = .running ∧
      ∀ m, (at_ 255#8 [0xFF#8]).config.table.byteOf m ≠ (at_ 255#8 [0xFF#8]).mem.read 255 := ⟨rfl, fun m => by cases m <;> decide⟩
theorem witness_OperandFetchPastMemoryRaises :
    At (at_ 254#8 [0xA0#8]) .add ∧ 255 < 254 + Mnemonic.add.operandCount ∧
      At (fetchTwo (at_ 254#8 [0x01#8])) .hlt ∧ (fetchTwo (at_ 254#8 [0x01#8])).config.operandFetch = .alwaysTwo := by unfold At; decide
theorem witness_TransitionsExistOnlyFromRunning :
    (at_ 0#8 [0x01#8]).config.table.ok = true ∧ (at_ 0#8 [0x01#8]).status = .running ∧
      answers (step (at_ 0#8 [0x01#8])) (fun _ => true) = true ∧ { State.reset with status := .halted }.status = .halted := by decide
/-- A machine that meets the invariant, with a program that raises no error at once. -/
theorem inv_at_zero : Inv (at_ 0#8 [0xA0#8, 0#8, 1#8]) :=
  ⟨by decide, by decide, rfl, fun h => absurd rfl h, fun e h => by cases h⟩
theorem witness_StepKeepsInvariant :
    Inv (at_ 0#8 [0xA0#8, 0#8, 1#8]) ∧ ∃ t, step (at_ 0#8 [0xA0#8, 0#8, 1#8]) = .next t := ⟨inv_at_zero, _, rfl⟩
theorem witness_BudgetedRunNeverStops :
    Inv (at_ 0#8 [0xA0#8, 0#8, 1#8]) := inv_at_zero
theorem witness_EndedRunStaysAsItIs :
    answers (runFuel 1 (at_ 0#8 [0x01#8])) (fun t => decide (t.status = .halted)) = true := by decide
theorem witness_ErrorEntryCommitsNothingElse :
    State.reset.error = none ∧ answers (step State.reset) (fun t => decide (t.error ≠ none)) = true := by decide
/-- The error entry of a zero byte at reset: a halted machine with a record, which meets the invariant. -/
def erred : State := errorEntry State.reset 0#8 .unsupportedOpcode none
theorem inv_erred : Inv erred :=
  ⟨rfl, by decide, rfl, fun _ => rfl, fun e h => by cases h; exact ⟨rfl, rfl, trivial⟩⟩
theorem witness_ErrorIsWrittenAtMostOnce :
    (Inv erred ∧ erred.error ≠ none) ∧ (Inv State.reset ∧ ∃ t, step State.reset = .next t) := 
  ⟨⟨inv_erred, by decide⟩, ⟨rfl, by decide, rfl, fun h => absurd rfl h, fun e h => by cases h⟩, _, rfl⟩
theorem witness_OnlyCmpWritesFlags :
    answers (exec (.cmp 0#8 1#8) (at_ 252#8 [0xA7#8, 0#8, 1#8])) (fun t => decide (t.flags ≠ (at_ 252#8 [0xA7#8, 0#8, 1#8]).flags)) = true ∧
      answers (step (at_ 252#8 [0xA7#8, 0#8, 1#8])) (fun t => decide (t.flags ≠ (at_ 252#8 [0xA7#8, 0#8, 1#8]).flags)) = true ∧
      (at_ 252#8 [0xA7#8, 0#8, 1#8]).config.table.ok = true ∧ (at_ 252#8 [0xA7#8, 0#8, 1#8]).pc.toNat + 3 ≤ 255 := by decide
theorem witness_FlagsLAndGAreNeverRead :
    (at_ 253#8 [0x55#8, 0#8]).config.table.ok = true ∧ (at_ 253#8 [0x55#8, 0#8]).pc.toNat + 2 ≤ 255 ∧
      answers (step (at_ 253#8 [0x55#8, 0#8])) (fun _ => true) = true := by decide
theorem witness_OnlyPrnAppendsOneByteToOutput :
    answers (step (at_ 253#8 [0x47#8, 0#8])) (fun t => decide (t.out = [0#8])) = true ∧
      (at_ 253#8 [0x47#8, 0#8]).pc.toNat + 2 ≤ 255 := by decide
theorem witness_OnlyPushAndCallStoreOneByte :
    (regs (at_ 0#8 [0x45#8, 1#8]) [(1, 9#8), (7, 254#8)]).mem.wf = true ∧ answers (step (regs (at_ 0#8 [0x45#8, 1#8]) [(1, 9#8), (7, 254#8)])) (fun t => decide (t.mem.read 255 = 9#8)) = true ∧
      answers (step (at_ 0#8 [0x01#8])) (fun _ => true) = true := by decide
theorem witness_StepReadsOnlyFetchedAndStackBytes :
    (regs (at_ 0#8 [0x45#8, 1#8]) [(1, 9#8), (7, 254#8)]).config.table.ok = true ∧ (regs (at_ 0#8 [0x45#8, 1#8]) [(1, 9#8), (7, 254#8)]).mem.wf = true ∧ ((regs (at_ 0#8 [0x45#8, 1#8]) [(1, 9#8), (7, 254#8)]).mem.write 128 7#8).wf = true ∧
      (∀ k : Nat, k ≤ 2 → ((regs (at_ 0#8 [0x45#8, 1#8]) [(1, 9#8), (7, 254#8)]).mem.write 128 7#8).read (0 + k) = (regs (at_ 0#8 [0x45#8, 1#8]) [(1, 9#8), (7, 254#8)]).mem.read (0 + k)) ∧
      ((regs (at_ 0#8 [0x45#8, 1#8]) [(1, 9#8), (7, 254#8)]).mem.write 128 7#8).read 254 = (regs (at_ 0#8 [0x45#8, 1#8]) [(1, 9#8), (7, 254#8)]).mem.read 254 ∧ answers (step (regs (at_ 0#8 [0x45#8, 1#8]) [(1, 9#8), (7, 254#8)])) (fun _ => true) = true ∧
      (regs (at_ 0#8 [0x45#8, 1#8]) [(1, 9#8), (7, 254#8)]).mem.write 128 7#8 ≠ (regs (at_ 0#8 [0x45#8, 1#8]) [(1, 9#8), (7, 254#8)]).mem := by decide
theorem witness_ConfigurationNeverChanges :
    answers (step State.reset) (fun _ => true) = true := by decide
theorem witness_OnlyHltOrAnErrorHalts :
    answers (step (at_ 255#8 [0x01#8])) (fun t => decide (t.status = .halted ∧ t.error = none)) = true ∧
      answers (step State.reset) (fun t => decide (t.status = .halted ∧ t.error ≠ none)) = true := by decide
theorem witness_PcAdvancesByOperandCountPlusOne :
    OpcodeTable.default.ok = true ∧ (decodeByte OpcodeTable.default 0xC0#8).count = 3 ∧ (decodeByte OpcodeTable.default 0xA0#8).instr = some .add ∧
      answers (step (at_ 252#8 [0xA0#8, 0#8, 1#8])) (fun t => decide (t.status = .running)) = true ∧
      (0xA0#8).getLsbD 4 = false := by decide
theorem witness_NextPcComesFromListedSources :
    answers (step (at_ 252#8 [0xA0#8, 0#8, 1#8])) (fun t => decide (t.pc = 255#8)) = true ∧
      answers (step (regs (at_ 254#8 [0x54#8, 2#8]) [(2, 32#8)])) (fun t => decide (t.pc = 32#8)) = true ∧
      answers (step (at_ 253#8 [0x55#8, 2#8])) (fun t => decide (t.pc = 255#8)) = true ∧
      answers (step (regs (cell (at_ 0#8 [0x11#8]) 1 255#8) [(7, 1#8)])) (fun t => decide (t.pc = 255#8)) = true ∧
      answers (step (at_ 255#8 [0x01#8])) (fun t => decide (t.pc = 255#8)) = true := by decide
theorem witness_OutOfRangeAddressIs256OrMinusOne :
    stepRaises (at_ 255#8 [0x45#8]) .memoryOutOfRange (some 256) = true ∧
      stepRaises (regs (at_ 0#8 [0x11#8]) [(7, 0#8)]) .memoryOutOfRange (some (-1)) = true := by decide
theorem witness_ErrorKindsComeFromTheirInstructions :
    stepRaises State.reset .unsupportedOpcode none = true ∧
      stepRaises (at_ 253#8 [0xA4#8, 0#8, 1#8]) .arithmeticDomain none = true ∧
      stepRaises (fatalPolicy (at_ 253#8 [0x46#8, 1#8])) .stackUnderflow none = true ∧
      stepRaises (at_ 0#8 [0xA0#8, 7#8, 255#8]) .registerOutOfRange (some 255) = true := by decide
/-- One state for each computation of MemoryOutOfRange: operand fetch, advance, PUSH and CALL at the top, `pc + 2` of CALL,
JEQ and JNE, RET and POP at the bottom, POP R7 that loads 0. -/
theorem witness_ErrorKindsComeFromTheirInstructions_memory :
    stepRaises (at_ 255#8 [0xA0#8]) .memoryOutOfRange (some 256) = true ∧
      stepRaises (at_ 253#8 [0x82#8, 0#8, 0#8]) .memoryOutOfRange (some 256) = true ∧
      stepRaises (regs (at_ 0#8 [0x45#8, 0#8]) [(7, 255#8)]) .memoryOutOfRange (some 256) = true ∧
      stepRaises (regs (at_ 0#8 [0x50#8, 0#8]) [(7, 255#8)]) .memoryOutOfRange (some 256) = true ∧
      stepRaises (at_ 254#8 [0x50#8, 0#8]) .memoryOutOfRange (some 256) = true ∧
      stepRaises (at_ 254#8 [0x55#8, 0#8]) .memoryOutOfRange (some 256) = true ∧
      stepRaises (flagsSet (at_ 254#8 [0x56#8, 0#8]) false false true) .memoryOutOfRange (some 256) = true ∧
      stepRaises (regs (at_ 1#8 [0x11#8]) [(7, 0#8)]) .memoryOutOfRange (some (-1)) = true ∧
      stepRaises (regs (at_ 1#8 [0x46#8, 0#8]) [(7, 0#8)]) .memoryOutOfRange (some (-1)) = true ∧
      stepRaises (regs (at_ 1#8 [0x46#8, 7#8]) [(7, 0xF5#8)]) .memoryOutOfRange (some (-1)) = true := by decide
theorem witness_FirstFailingCheckIsRaised :
    State.reset.config.table.ok = true ∧ firstError (.div 8#8 9#8) State.reset = some (.registerOutOfRange, some 8) ∧
      firstError (.div 0#8 1#8) (at_ 253#8 []) = some (.arithmeticDomain, none) ∧
      firstError (.add 0#8 1#8) (at_ 253#8 []) = some (.memoryOutOfRange, some 256) ∧
      firstError (.add 0#8 1#8) (at_ 252#8 []) = none := by decide
theorem witness_RegisterOperandByteIsTheIndex :
    (7#8).toNat < 8 ∧
      ((Instr.add 7#8 8#8).registerOperands.find? fun b => decide (8 ≤ b.toNat)) = some 8#8 ∧
      ((Instr.jne 255#8).registerOperands.find? fun b => decide (8 ≤ b.toNat)) = some 255#8 ∧
      OpcodeTable.default.ok = true ∧ Mnemonic.add.operandCount ≤ [8#8, 255#8].length := by decide
theorem witness_AluResultsReducedMod256 :
    (at_ 252#8 []).config.table.ok = true ∧ (at_ 252#8 []).pc.toNat + aluLength .add ≤ 255 ∧
      naturalResult .add 255 255 = some 510 ∧ (at_ 253#8 []).pc.toNat + aluLength .dec ≤ 255 ∧
      naturalResult .dec 0 255 = some (-1) ∧ naturalResult .div 255 1 = some 255 ∧
      AluOp.add ≠ .cmp ∧ answers (exec (AluOp.add.instr 0#8 1#8) (at_ 252#8 [])) (fun _ => true) = true := by decide
theorem witness_AluFrame :
    answers (exec (AluOp.sub.instr 0#8 1#8) (at_ 252#8 [])) (fun t => decide (t.error = none)) = true ∧
      answers (exec (AluOp.sub.instr 0#8 8#8) (at_ 252#8 [])) (fun t => decide (t.error ≠ none)) = true ∧
      regByte 1 ≠ 0#8 := by decide
theorem witness_CmpOrdersUnsignedValues :
    (at_ 252#8 []).config.table.ok = true ∧ (at_ 252#8 []).pc.toNat + 3 ≤ 255 := by decide
theorem witness_ZeroDivisorWritesNothing :
    (at_ 252#8 []).pc.toNat + 3 ≤ 255 ∧ ((at_ 252#8 []).readReg 1).toNat = 0 := by decide
theorem witness_QuotientAndRemainderAgree :
    (regs (at_ 252#8 []) [(0, 255#8), (1, 1#8)]).config.table.ok = true ∧
      (regs (at_ 252#8 []) [(0, 255#8), (1, 1#8)]).pc.toNat + 3 ≤ 255 ∧
      ((regs (at_ 252#8 []) [(0, 255#8), (1, 1#8)]).readReg 1).toNat ≠ 0 := by decide
theorem witness_ShiftByEightOrMoreGivesZero :
    (regs (at_ 252#8 []) [(1, 8#8)]).config.table.ok = true ∧ (regs (at_ 252#8 []) [(1, 8#8)]).pc.toNat + 3 ≤ 255 ∧
      8 ≤ ((regs (at_ 252#8 []) [(1, 8#8)]).readReg 1).toNat := by decide
theorem witness_LdiWritesImmediateVerbatim :
    (at_ 252#8 []).config.table.ok = true ∧ (at_ 252#8 []).pc.toNat + 3 ≤ 255 := by decide
theorem witness_LoadPrintHaltFrame :
    answers (exec (.ldi 0#8 255#8) (at_ 252#8 [])) (fun t => decide (t.error = none)) = true ∧
      answers (exec (.ldi 8#8 255#8) (at_ 252#8 [])) (fun t => decide (t.error ≠ none)) = true ∧
      answers (exec (.prn 7#8) (at_ 253#8 [])) (fun t => decide (t.error = none)) = true ∧
      answers (exec .hlt (at_ 255#8 [])) (fun _ => true) = true := by decide
theorem witness_PushStoresAtIncrementedSp :
    (regs (at_ 253#8 []) [(7, 254#8)]).config.table.ok = true ∧ (regs (at_ 253#8 []) [(7, 254#8)]).pc.toNat + 2 ≤ 255 ∧ (regs (at_ 253#8 []) [(7, 254#8)]).sp.toNat + 1 ≤ 255 := by decide
theorem witness_PopLoadsThenDecrementsSp :
    (regs (at_ 253#8 []) [(7, 1#8)]).config.table.ok = true ∧ (regs (at_ 253#8 []) [(7, 1#8)]).pc.toNat + 2 ≤ 255 ∧
      (regs (at_ 253#8 []) [(7, 1#8)]).sp ≠ 0xF4#8 ∧ (3 : Fin 8) ≠ spIndex ∧ 0 < (regs (at_ 253#8 []) [(7, 1#8)]).sp.toNat ∧
      (regs (cell (at_ 253#8 []) 0 1#8) [(7, 0#8)]).sp ≠ 0xF4#8 ∧
      0 < ((regs (cell (at_ 253#8 []) 0 1#8) [(7, 0#8)]).mem.read (regs (cell (at_ 253#8 []) 0 1#8) [(7, 0#8)]).sp.toNat).toNat := by decide
theorem witness_PopAtSentinelFollowsPolicy :
    (at_ 253#8 []).config.table.ok = true ∧ (at_ 253#8 []).sp = 0xF4#8 ∧
      (at_ 253#8 []).config.underflowPolicy = .silent ∧ (at_ 253#8 []).pc.toNat + 2 ≤ 255 ∧
      (fatalPolicy (at_ 253#8 [])).sp = 0xF4#8 ∧ (fatalPolicy (at_ 253#8 [])).config.underflowPolicy = .fatal := by decide
theorem witness_StackInstructionsNeverWrapSp :
    (regs (at_ 253#8 []) [(7, 0xFF#8)]).sp = 0xFF#8 ∧ (regs (at_ 253#8 []) [(7, 0xFF#8)]).pc.toNat + 2 ≤ 255 ∧
      (regs (at_ 253#8 []) [(7, 0#8)]).sp = 0#8 ∧ (0 : Fin 8) ≠ spIndex ∧
      (regs (at_ 253#8 []) [(7, 0xF5#8)]).sp ≠ 0xF4#8 ∧ (regs (at_ 253#8 []) [(7, 0xF5#8)]).mem.read 0xF5 = 0#8 := by decide
theorem witness_CallPushesReturnAddressAndJumps :
    (regs (at_ 253#8 []) [(7, 254#8)]).pc.toNat + 2 ≤ 255 ∧ (regs (at_ 253#8 []) [(7, 254#8)]).sp.toNat + 1 ≤ 255 := by decide
theorem witness_RetPopsIntoPcOrUnderflows :
    (regs (at_ 255#8 []) [(7, 1#8)]).sp ≠ 0xF4#8 ∧ 0 < (regs (at_ 255#8 []) [(7, 1#8)]).sp.toNat ∧
      (at_ 255#8 []).sp = 0xF4#8 := by decide
theorem witness_StackFrame :
    (regs (at_ 253#8 []) [(7, 254#8)]).mem.wf = true ∧ answers (exec (.push 0#8) (regs (at_ 253#8 []) [(7, 254#8)])) (fun t => decide (t.error = none)) = true ∧
      answers (exec (.call 0#8) (regs (at_ 253#8 []) [(7, 254#8)])) (fun t => decide (t.error = none)) = true ∧
      answers (exec (.pop 0#8) (regs (at_ 253#8 []) [(7, 254#8)])) (fun t => decide (t.error = none)) = true ∧
      answers (exec .ret (regs (at_ 253#8 []) [(7, 254#8)])) (fun t => decide (t.error = none)) = true ∧ (1 : Fin 8) ≠ spIndex ∧ regByte 1 ≠ 0#8 := by decide
theorem witness_JeqTakenIffEqualFlagSet :
    (flagsSet (at_ 254#8 []) false false true).flags.e = true ∧ (at_ 253#8 []).flags.e = false ∧
      (at_ 253#8 []).pc.toNat + 2 ≤ 255 ∧ (at_ 254#8 []).flags.e = false ∧ 255 < (at_ 254#8 []).pc.toNat + 2 := by decide
theorem witness_JneTakenIffEqualFlagClear :
    (at_ 254#8 []).flags.e = false ∧ (flagsSet (at_ 253#8 []) false false true).flags.e = true ∧
      (at_ 253#8 []).pc.toNat + 2 ≤ 255 ∧ (flagsSet (at_ 254#8 []) false false true).flags.e = true ∧
      255 < (at_ 254#8 []).pc.toNat + 2 := by decide
theorem witness_JumpFrame :
    answers (exec (.jmp 0#8) (at_ 254#8 [])) (fun t => decide (t.error = none)) = true ∧
      answers (exec (.jeq 0#8) (at_ 254#8 [])) (fun t => decide (t.error ≠ none)) = true ∧
      answers (exec (.jne 0#8) (at_ 254#8 [])) (fun t => decide (t.error = none)) = true := by decide
theorem witness_PushThenPopRestoresValueAndSp :
    (regs (at_ 251#8 []) [(0, 9#8), (7, 254#8)]).config.table.ok = true ∧ (regs (at_ 251#8 []) [(0, 9#8), (7, 254#8)]).mem.wf = true ∧ (0 : Fin 8) ≠ spIndex ∧ (3 : Fin 8) ≠ spIndex ∧
      (regs (at_ 251#8 []) [(0, 9#8), (7, 254#8)]).sp.toNat + 1 ≤ 255 ∧ (regs (at_ 251#8 []) [(0, 9#8), (7, 254#8)]).sp.toNat + 1 ≠ 0xF4 ∧ (regs (at_ 251#8 []) [(0, 9#8), (7, 254#8)]).pc.toNat + 4 ≤ 255 := by decide
theorem witness_RetReturnsToCallSitePlusTwo :
    (regs (at_ 253#8 []) [(7, 254#8)]).mem.wf = true ∧ (regs (at_ 253#8 []) [(7, 254#8)]).pc.toNat + 2 ≤ 255 ∧ (regs (at_ 253#8 []) [(7, 254#8)]).sp.toNat + 1 ≤ 255 ∧ (regs (at_ 253#8 []) [(7, 254#8)]).sp.toNat + 1 ≠ 0xF4 ∧
      answers (exec (.call 0#8) (regs (at_ 253#8 []) [(7, 254#8)])) (fun t => decide (t.sp = 255#8 ∧ t.mem.read 255 = 255#8)) = true := by decide
theorem witness_CmpThenBranchOnEquality :
    (at_ 250#8 []).config.table.ok = true ∧ (at_ 250#8 []).pc.toNat + 5 ≤ 255 := by decide
theorem witness_StoredByteIsFetchedNext :
    (regs (at_ 253#8 [0x45#8, 0#8]) [(0, 0x01#8), (7, 254#8)]).config.table.ok = true ∧ (regs (at_ 253#8 [0x45#8, 0#8]) [(0, 0x01#8), (7, 254#8)]).mem.wf = true ∧ (regs (at_ 253#8 [0x45#8, 0#8]) [(0, 0x01#8), (7, 254#8)]).status = .running ∧ (regs (at_ 253#8 [0x45#8, 0#8]) [(0, 0x01#8), (7, 254#8)]).pc.toNat + 2 ≤ 255 ∧
      (regs (at_ 253#8 [0x45#8, 0#8]) [(0, 0x01#8), (7, 254#8)]).sp.toNat + 1 ≤ 255 ∧ (regs (at_ 253#8 [0x45#8, 0#8]) [(0, 0x01#8), (7, 254#8)]).sp.toNat + 1 = (regs (at_ 253#8 [0x45#8, 0#8]) [(0, 0x01#8), (7, 254#8)]).pc.toNat + 2 ∧
      (regs (at_ 253#8 [0x50#8, 0#8]) [(0, 255#8), (7, 254#8)]).mem.wf = true ∧ (regs (at_ 253#8 [0x50#8, 0#8]) [(0, 255#8), (7, 254#8)]).status = .running ∧ (regs (at_ 253#8 [0x50#8, 0#8]) [(0, 255#8), (7, 254#8)]).pc.toNat + 2 ≤ 255 ∧ (regs (at_ 253#8 [0x50#8, 0#8]) [(0, 255#8), (7, 254#8)]).sp.toNat + 1 ≤ 255 ∧
      ((regs (at_ 253#8 [0x50#8, 0#8]) [(0, 255#8), (7, 254#8)]).readReg 0).toNat = (regs (at_ 253#8 [0x50#8, 0#8]) [(0, 255#8), (7, 254#8)]).sp.toNat + 1 := by decide
/-- The premises of its two outcomes: the stored byte decodes (HLT at the top of memory), and the stored byte is in no row. -/
theorem witness_StoredByteIsFetchedNext_next :
    decode OpcodeTable.default [0x01#8] = .ok (.hlt, []) ∧ (∀ m, OpcodeTable.default.byteOf m ≠ 255#8) :=
  ⟨rfl, fun m => by cases m <;> decide⟩
theorem witness_LoadCopiesImageFromAddressZero :
    State.reset.mem.wf = true ∧ (List.replicate 256 (7#8 : Byte)).length ≤ 256 ∧
      (List.replicate 256 (7#8 : Byte))[255]? = some 7#8 ∧ ([] : List Byte).length ≤ 0 := by
  refine ⟨by decide, ?_, ?_, by decide⟩
  · rw [List.length_replicate]
  · rw [List.getElem?_replicate, if_pos (by decide)]
theorem witness_LaunchLoadsOrRefuses :
    State.reset.config.table.ok = true ∧ 256 < (List.replicate 257 (0#8 : Byte)).length ∧
      (List.replicate 256 (0#8 : Byte)).length ≤ 256 := by
  refine ⟨by decide, ?_, ?_⟩
  · rw [List.length_replicate]; decide
  · rw [List.length_replicate]
theorem witness_ImageTextGivesItsBytes : (∀ c ∈ [' ', ' '], c = ' ') ∧ (∀ line ∈ [['1'], []], '\n' ∉ line) ∧
    [['1'], []] ≠ [] := by simp
theorem witness_ImageTextGivesItsBytes_lines : parseLine (digits 0x82#8) = some (some 0x82#8) ∧
    parseLine ['#', 'x'] = some none ∧ parseLine ['1'] = none := by decide
theorem witness_EveryRunEndsIsCutOrGoesOn : Inv (at_ 0#8 [0x01#8]) ∧ RunEnds (.steps 1) (at_ 0#8 [0x01#8])
    { at_ 0#8 [0x01#8] with status := .halted } ∧ RunEnds .unbounded (at_ 0#8 [0x01#8])
    { at_ 0#8 [0x01#8] with status := .halted } ∧ RunIsCut (.steps 0) (at_ 0#8 [0x01#8]) (at_ 0#8 [0x01#8]) :=
  ⟨⟨by decide, by decide, rfl, fun h => absurd rfl h, fun e h => by cases h⟩, ⟨rfl, 1, Nat.le_refl 1, rfl⟩,
    ⟨rfl, 1, trivial, rfl⟩, rfl, 0, rfl, rfl⟩
/-- A JMP to its own address goes on for ever (44_control_transfer.md R109). -/
theorem witness_EveryRunEndsIsCutOrGoesOn_forever :
    Inv (at_ 0#8 [0x54#8, 0#8]) ∧ RunGoesOn .unbounded (at_ 0#8 [0x54#8, 0#8]) := by
  refine ⟨⟨by decide, by decide, rfl, fun h => absurd rfl h, fun e h => by cases h⟩, rfl, fun n => ⟨at_ 0#8 [0x54#8, 0#8], ?_, rfl⟩⟩
  induction n with
  | zero => rfl
  | succ k ih => rw [runFuel_succ k _ (at_ 0#8 [0x54#8, 0#8]) rfl, ih]

end Sys2Proof.Tests
end

section
/-! SUPPORT. The flags and the output: which instructions touch them, and that no instruction reads FL.L or FL.G
(`10_state.md` R24, R25, R31). -/

namespace Sys2Proof.Machine

/-! ### Running one instruction below the top of memory -/

/-- The address `n` bytes above a byte passes the check when it stays below 256. -/
theorem checkAddr_add (a : Byte) (n : Nat) (h : a.toNat + n ≤ 255) :
    checkAddr (a.toNat + n) = .ok (a + BitVec.ofNat 8 n) := by
  have hsum : (a + BitVec.ofNat 8 n).toNat = a.toNat + n := by
    rw [BitVec.toNat_add, BitVec.toNat_ofNat]
    omega
  rw [← Nat.cast_add, ← hsum, checkAddr_toNat]

theorem exec_cmp_regByte (ra rb : Fin 8) (s : State) (ok : s.config.table.ok = true) (h : s.pc.toNat + 3 ≤ 255) :
    exec (.cmp (regByte ra) (regByte rb)) s =
      .next { s with flags := compareFlags (s.readReg ra) (s.readReg rb), pc := s.pc + 3#8 } := by
  have heff : aluBinary .cmp (regByte ra) (regByte rb) s =
      .ok ({ s with flags := compareFlags (s.readReg ra) (s.readReg rb) }, .advance) := by
    simp only [aluBinary, resolve_regByte]
    rfl
  simp only [exec, execCmp, heff]
  exact transact_advance_ok .cmp s _ 3 (s.config.table.ok_length ok .cmp) h

/-- Two bytes compare in exactly one of three ways. -/
theorem compareFlags_trichotomy (x y : Byte) :
    compareFlags x y = ⟨true, false, false⟩ ∨ compareFlags x y = ⟨false, true, false⟩ ∨
      compareFlags x y = ⟨false, false, true⟩ := by
  rcases Nat.lt_trichotomy x.toNat y.toNat with hlt | heq | hgt
  · have hne : x ≠ y := by rintro rfl; omega
    exact .inl (by simp [compareFlags, hlt, hne, hlt.le])
  · obtain rfl := BitVec.eq_of_toNat_eq heq
    exact .inr (.inr (by simp [compareFlags]))
  · have hne : x ≠ y := by rintro rfl; omega
    exact .inr (.inl (by simp [compareFlags, hgt, hne, hgt.le]))

theorem exec_prn_regByte (ra : Fin 8) (s : State) (ok : s.config.table.ok = true) (h : s.pc.toNat + 2 ≤ 255) :
    exec (.prn (regByte ra)) s = .next { s with out := s.out ++ [s.readReg ra], pc := s.pc + 2#8 } := by
  simp only [exec, execPrn, resolve_regByte]
  exact transact_advance_ok .prn s _ 2 (s.config.table.ok_length ok .prn) h

/-- A conditional jump below the top of memory goes to the register's value or falls through, and raises nothing. -/
theorem transact_branchIf_regByte (m : Mnemonic) (taken : Bool) (ra : Fin 8) (s : State) (h : s.pc.toNat + 2 ≤ 255) :
    transact m s (branchIf taken (regByte ra) s) =
      .next { s with pc := if taken = true then s.readReg ra else s.pc + 2#8 } := by
  have hfall : checkAddr (s.pc.toNat + 2) = .ok (s.pc + 2#8) := checkAddr_add s.pc 2 h
  simp only [branchIf, resolve_regByte]
  cases taken with
  | true => rfl
  | false =>
    simp only [bind, Except.bind, hfall]
    rfl

theorem exec_jeq_regByte (ra : Fin 8) (s : State) (h : s.pc.toNat + 2 ≤ 255) :
    exec (.jeq (regByte ra)) s =
      .next { s with pc := if s.flags.e = true then s.readReg ra else s.pc + 2#8 } :=
  transact_branchIf_regByte .jeq s.flags.e ra s h

theorem exec_jne_regByte (ra : Fin 8) (s : State) (h : s.pc.toNat + 2 ≤ 255) :
    exec (.jne (regByte ra)) s =
      .next { s with pc := if s.flags.e = false then s.readReg ra else s.pc + 2#8 } := by
  have hjne := transact_branchIf_regByte .jne (!s.flags.e) ra s h
  simp only [Bool.not_eq_true'] at hjne
  exact hjne

/-! ### Which instructions write the flags and the output -/

theorem Committed.flags_eq_or_cmp {s w : State} {i : Instr} {act : Action} (c : Committed s i w act) :
    w.flags = s.flags ∨ ∃ a b, i = .cmp a b := by
  cases c with
  | cmp ra rb => exact .inr ⟨_, _, rfl⟩
  | _ => exact .inl rfl

theorem Committed.out_eq_or_prn {s w : State} {i : Instr} {act : Action} (c : Committed s i w act) :
    w.out = s.out ∨ (i.mnemonic = .prn ∧ ∃ v : Byte, w.out = s.out ++ [v]) := by
  cases c with
  | prn ra => exact .inr ⟨rfl, _, rfl⟩
  | _ => exact .inl rfl

/-- The PC update writes neither the flags nor the output. -/
theorem applyAction_flags_out (op : Byte) (w t : State) (act : Action) (h : applyAction op w act = .ok t) :
    t.flags = w.flags ∧ t.out = w.out := by
  rcases applyAction_eq_ok op w t act h with ⟨-, n, -, rfl⟩ | ⟨n, -, rfl⟩ | ⟨-, rfl⟩ <;> exact ⟨rfl, rfl⟩

/-- The error entry and the PC update keep the flags, so what an instruction does to them is what it commits. -/
theorem exec_flags_eq_or_cmp (i : Instr) (s t : State) (h : exec i s = .next t) :
    t.flags = s.flags ∨ ∃ a b, i = .cmp a b := by
  rcases exec_cases i s t h with ⟨w, act, hc, ha⟩ | ⟨e, -, rfl⟩
  · rw [(applyAction_flags_out _ _ _ _ ha).1]
    exact hc.flags_eq_or_cmp
  · exact .inl rfl

theorem exec_out_eq_or_prn (i : Instr) (s t : State) (h : exec i s = .next t) :
    t.out = s.out ∨ (i.mnemonic = .prn ∧ ∃ v : Byte, t.out = s.out ++ [v]) := by
  rcases exec_cases i s t h with ⟨w, act, hc, ha⟩ | ⟨e, -, rfl⟩
  · rw [(applyAction_flags_out _ _ _ _ ha).2]
    exact hc.out_eq_or_prn
  · exact .inl rfl

theorem step_flags_eq_or_cmp (s t : State) (h : step s = .next t) :
    t.flags = s.flags ∨ s.mem.read s.pc.toNat = s.config.table.byteOf .cmp := by
  obtain ⟨-, ⟨i, -, hb, hx⟩ | ⟨e, -, rfl⟩⟩ := step_inv s t h
  · refine (exec_flags_eq_or_cmp i s t hx).imp_right ?_
    rintro ⟨a, b, rfl⟩
    exact hb.symm
  · exact .inl rfl

theorem step_out_eq_or_prn (s t : State) (h : step s = .next t) :
    t.out = s.out ∨
      (s.mem.read s.pc.toNat = s.config.table.byteOf .prn ∧ ∃ v : Byte, t.out = s.out ++ [v]) := by
  obtain ⟨-, ⟨i, -, hb, hx⟩ | ⟨e, -, rfl⟩⟩ := step_inv s t h
  · refine (exec_out_eq_or_prn i s t hx).imp_right ?_
    rintro ⟨hm, hv⟩
    exact ⟨by rw [← hb, hm], hv⟩
  · exact .inl rfl

/-! ### No instruction reads FL.L or FL.G

`setLG l g` overwrites exactly these two flags. Every effect but CMP's commutes with it; CMP's effect does not see it at
all, for CMP overwrites all three flags. -/

/-- The state with FL.L and FL.G overwritten. -/
def setLG (l g : Bool) (s : State) : State := { s with flags := { l := l, g := g, e := s.flags.e } }

/-- The effect with FL.L and FL.G overwritten in its working copy. -/
def effectSetLG (l g : Bool) (r : Effect) : Effect := r.map fun p => (setLG l g p.1, p.2)

section
variable (l g : Bool)

@[simp] theorem setLG_config (s : State) : (setLG l g s).config = s.config := rfl
@[simp] theorem setLG_pc (s : State) : (setLG l g s).pc = s.pc := rfl
@[simp] theorem setLG_status (s : State) : (setLG l g s).status = s.status := rfl
@[simp] theorem setLG_mem (s : State) : (setLG l g s).mem = s.mem := rfl
@[simp] theorem setLG_readReg (s : State) (r : Fin 8) : (setLG l g s).readReg r = s.readReg r := rfl
@[simp] theorem setLG_sp (s : State) : (setLG l g s).sp = s.sp := rfl
@[simp] theorem setLG_memRead (s : State) (n : Int) : memRead (setLG l g s) n = memRead s n := rfl
@[simp] theorem setLG_writeReg (s : State) (r : Fin 8) (v : Byte) :
    (setLG l g s).writeReg r v = setLG l g (s.writeReg r v) := rfl
@[simp] theorem setLG_takeError (s : State) (op : Byte) (e : Raised) :
    (setLG l g s).takeError op e = setLG l g (s.takeError op e) := rfl

@[simp] theorem effectSetLG_pure (w : State) (act : Action) :
    effectSetLG l g (pure (w, act)) = pure (setLG l g w, act) := rfl
@[simp] theorem effectSetLG_ok (w : State) (act : Action) :
    effectSetLG l g (.ok (w, act)) = .ok (setLG l g w, act) := rfl
@[simp] theorem effectSetLG_error (e : Raised) : effectSetLG l g (.error e) = .error e := rfl

/-- A computation that does not see the flags may go first. (The proofs below take `bind_pure_comp` out of the simp set,
so that an effect stays a chain of binds and this lemma reaches its end.) -/
@[simp] theorem effectSetLG_bind {α : Type} (x : Except Raised α) (k : α → Effect) :
    effectSetLG l g (x >>= k) = x >>= fun a => effectSetLG l g (k a) := by
  cases x <;> rfl

/-- What follows a working copy with the two flags overwritten. -/
@[simp] theorem map_setLG_bind (x : Except Raised State) (k : State → Effect) :
    (x.map (setLG l g) >>= k) = x >>= fun w => k (setLG l g w) := by
  cases x <;> rfl

@[simp] theorem decrementSp_setLG (s : State) : decrementSp (setLG l g s) = (decrementSp s).map (setLG l g) := by
  simp only [decrementSp, setLG_sp]
  cases checkAddr _ <;> rfl

@[simp] theorem pushByte_setLG (s : State) (value : State → Byte) :
    pushByte (setLG l g s) value = (pushByte s fun w => value (setLG l g w)).map (setLG l g) := by
  by_cases h : s.sp.toNat + 1 ≤ 255
  · rw [pushByte_ok s _ h, pushByte_ok (setLG l g s) value h]
    rfl
  · rw [pushByte_error s _ (by omega), pushByte_error (setLG l g s) value (by rw [setLG_sp]; omega)]
    rfl

theorem branchIf_setLG (taken : Bool) (a : Byte) (s : State) :
    branchIf taken a (setLG l g s) = effectSetLG l g (branchIf taken a s) := by
  cases taken <;> simp [branchIf, -bind_pure_comp]

/-- Only CMP's result writes flags; any other is written back to a register or raises. -/
theorem writeBack_setLG (op : AluOp) (hop : op ≠ .cmp) (ra : Fin 8) (x y : Byte) (s : State) :
    writeBack (setLG l g s) ra (aluApply op x y) = (writeBack s ra (aluApply op x y)).map (setLG l g) := by
  cases hv : aluApply op x y with
  | write v => rfl
  | flags f => exact absurd (aluApply_eq_flags _ _ _ _ hv).1 hop
  | domainError => rfl

theorem aluBinary_setLG (op : AluOp) (hop : op ≠ .cmp) (a b : Byte) (s : State) :
    aluBinary op a b (setLG l g s) = effectSetLG l g (aluBinary op a b s) := by
  simp [aluBinary, writeBack_setLG l g op hop, -bind_pure_comp]

theorem aluUnary_setLG (op : AluOp) (hop : op ≠ .cmp) (a : Byte) (s : State) :
    aluUnary op a (setLG l g s) = effectSetLG l g (aluUnary op a s) := by
  simp [aluUnary, writeBack_setLG l g op hop, -bind_pure_comp]

/-- CMP's effect reads two registers and overwrites all three flags. -/
theorem aluBinary_cmp_setLG (a b : Byte) (s : State) : aluBinary .cmp a b (setLG l g s) = aluBinary .cmp a b s := rfl

theorem applyAction_setLG (op : Byte) (w : State) (act : Action) :
    applyAction op (setLG l g w) act = (applyAction op w act).map (setLG l g) := by
  cases act with
  | advance =>
    simp only [applyAction, setLG_pc]
    cases checkAddr _ <;> rfl
  | setPc n => rfl
  | halt => rfl

/-- An effect that commutes with overwriting the two flags ends in a transition that does. -/
theorem transact_setLG (m : Mnemonic) (s t : State) (r r' : Effect) (hr : r' = effectSetLG l g r)
    (h : transact m s r = .next t) : transact m (setLG l g s) r' = .next (setLG l g t) := by
  subst hr
  rcases r with e | ⟨w, act⟩
  · cases h
    rfl
  · simp only [transact, effectSetLG_ok, applyAction_setLG, setLG_config] at h ⊢
    cases ha : applyAction (s.config.table.byteOf m) w act <;> rw [ha] at h <;> cases h <;> rfl

/-- CMP answers the same state, or raises and keeps the overwritten flags. -/
theorem execCmp_setLG (a b : Byte) (s t : State) (h : execCmp a b s = .next t) :
    execCmp a b (setLG l g s) = .next t ∨ execCmp a b (setLG l g s) = .next (setLG l g t) := by
  simp only [execCmp, aluBinary_cmp_setLG] at h ⊢
  rcases transact_cases .cmp s (aluBinary .cmp a b s) with ⟨w, act, w', hr, ha, hn⟩ | ⟨e, hr, hn⟩
  · left
    rw [← h, hn, hr]
    simp [transact, ha]
  · right
    cases hn.symm.trans h
    rcases hr with hr | ⟨w, act, hr, ha⟩ <;> rw [hr]
    · simp [transact]
    · simp [transact, ha]

/-- CMP answers the same state or raises; every other instruction answers its state with FL.L and FL.G overwritten. -/
theorem exec_setLG (i : Instr) (s t : State) (h : exec i s = .next t) :
    exec i (setLG l g s) = .next t ∨ exec i (setLG l g s) = .next (setLG l g t) := by
  cases i with
  | add a b => exact .inr (transact_setLG l g _ s t _ _ (aluBinary_setLG l g .add (by decide) a b s) h)
  | sub a b => exact .inr (transact_setLG l g _ s t _ _ (aluBinary_setLG l g .sub (by decide) a b s) h)
  | mul a b => exact .inr (transact_setLG l g _ s t _ _ (aluBinary_setLG l g .mul (by decide) a b s) h)
  | div a b => exact .inr (transact_setLG l g _ s t _ _ (aluBinary_setLG l g .div (by decide) a b s) h)
  | mod a b => exact .inr (transact_setLG l g _ s t _ _ (aluBinary_setLG l g .mod (by decide) a b s) h)
  | and a b => exact .inr (transact_setLG l g _ s t _ _ (aluBinary_setLG l g .and (by decide) a b s) h)
  | or a b => exact .inr (transact_setLG l g _ s t _ _ (aluBinary_setLG l g .or (by decide) a b s) h)
  | xor a b => exact .inr (transact_setLG l g _ s t _ _ (aluBinary_setLG l g .xor (by decide) a b s) h)
  | not a => exact .inr (transact_setLG l g _ s t _ _ (aluUnary_setLG l g .not (by decide) a s) h)
  | shl a b => exact .inr (transact_setLG l g _ s t _ _ (aluBinary_setLG l g .shl (by decide) a b s) h)
  | shr a b => exact .inr (transact_setLG l g _ s t _ _ (aluBinary_setLG l g .shr (by decide) a b s) h)
  | inc a => exact .inr (transact_setLG l g _ s t _ _ (aluUnary_setLG l g .inc (by decide) a s) h)
  | dec a => exact .inr (transact_setLG l g _ s t _ _ (aluUnary_setLG l g .dec (by decide) a s) h)
  | cmp a b => exact execCmp_setLG l g a b s t h
  | ldi a imm => exact .inr (transact_setLG l g _ s t _ _ (by simp [-bind_pure_comp]) h)
  | prn a => exact .inr (transact_setLG l g _ s t _ _ (by cases resolve a <;> rfl) h)
  | hlt => exact .inr (transact_setLG l g .hlt s t (.ok (s, .halt)) _ rfl h)
  | push a => exact .inr (transact_setLG l g _ s t _ _ (by simp [-bind_pure_comp]) h)
  | pop a =>
    refine .inr (transact_setLG l g _ s t _ _ ?_ h)
    cases hp : s.config.underflowPolicy <;> simp [hp, apply_ite (effectSetLG l g), -bind_pure_comp]
  | call a => exact .inr (transact_setLG l g _ s t _ _ (by simp [-bind_pure_comp]) h)
  | ret => exact .inr (transact_setLG l g .ret s t _ _ (by simp [apply_ite (effectSetLG l g), -bind_pure_comp]) h)
  | jmp a => exact .inr (transact_setLG l g _ s t _ _ (by simp [-bind_pure_comp]) h)
  | jeq a => exact .inr (transact_setLG l g .jeq s t _ _ (branchIf_setLG l g _ a s) h)
  | jne a => exact .inr (transact_setLG l g .jne s t _ _ (branchIf_setLG l g _ a s) h)

theorem readBytes_setLG (s : State) (n : Nat) (addr : Int) : readBytes (setLG l g s) addr n = readBytes s addr n := by
  induction n generalizing addr with
  | zero => rfl
  | succ n ih => simp only [readBytes, setLG_memRead, ih]

/-- A fetch depends on the memory, the PC and the configuration only. -/
theorem fetch_setLG (s : State) : fetch (setLG l g s) = fetch s := by
  simp [fetch, fetchOperands, readBytes_setLG]

theorem step_setLG (s t : State) (h : step s = .next t) :
    step (setLG l g s) = .next t ∨ step (setLG l g s) = .next (setLG l g t) := by
  obtain ⟨hrun, ⟨i, hf, -, hx⟩ | ⟨e, hf, rfl⟩⟩ := step_inv s t h
  · simp only [step, setLG_status, hrun, fetch_setLG, hf]
    exact exec_setLG l g i s t hx
  · right
    simp only [step, setLG_status, hrun, fetch_setLG, hf, setLG_takeError]

end

end Sys2Proof.Machine
end

section
/-! The statements of `10_state.md`. -/

namespace Sys2Proof.Proofs

open Sys2Proof.Machine Sys2Proof.Claims

/-- Settles O20: every effect but CMP's commutes with overwriting FL.L and FL.G, and CMP's does not see them. -/
theorem flagsLAndGAreNeverRead : Obligations.FlagsLAndGAreNeverRead := by
  unfold Obligations.FlagsLAndGAreNeverRead
  refine ⟨fun ra s _ hpc => ⟨exec_jeq_regByte ra s hpc, exec_jne_regByte ra s hpc⟩, fun s t l g h => ?_⟩
  rcases step_setLG l g s t h with hstep | hstep
  · exact ⟨t.flags, hstep, .inl rfl⟩
  · exact ⟨_, hstep, .inr rfl⟩

/-- Settles O19: only CMP commits other flags, and its comparison has exactly one of three results. -/
theorem onlyCmpWritesFlags : Obligations.OnlyCmpWritesFlags := by
  unfold Obligations.OnlyCmpWritesFlags
  refine ⟨fun i s t h hne => ?_, fun s t h hne => ?_, fun ra rb s ok hpc => ?_⟩
  · exact (exec_flags_eq_or_cmp i s t h).resolve_left hne
  · exact (step_flags_eq_or_cmp s t h).resolve_left hne
  · refine ⟨_, exec_cmp_regByte ra rb s ok hpc, ?_⟩
    rcases compareFlags_trichotomy (s.readReg ra) (s.readReg rb) with hf | hf | hf <;> simp [hf]

/-- Settles O21: only PRN commits another output, which is the old one with its register's value appended. -/
theorem onlyPrnAppendsOneByteToOutput : Obligations.OnlyPrnAppendsOneByteToOutput := by
  unfold Obligations.OnlyPrnAppendsOneByteToOutput
  exact ⟨rfl, step_out_eq_or_prn, exec_prn_regByte⟩

end Sys2Proof.Proofs
end

section
/-! SUPPORT. Encoding: reading an instruction's own bytes back, the ALU rows of the opcode table, and the run of LDI
(`30_encoding.md` R50 to R64, `41_alu.md` R81). -/

namespace Sys2Proof

/-! ### Reading back an instruction's own bytes -/

/-- The mnemonic of an instruction takes exactly its operand bytes: the converse of `Mnemonic.build_some`. -/
theorem Instr.build_operands (i : Instr) (rest : List Byte) : i.mnemonic.build (i.operands ++ rest) = some (i, rest) := by
  cases i <;> rfl

/-- The converse of `decode_inv`. -/
theorem decode_operands (t : OpcodeTable) (op : Byte) (i : Instr) (rest : List Byte) (h : t.lookup op = some i.mnemonic) :
    decode t (op :: (i.operands ++ rest)) = .ok (i, rest) := by
  simp only [decode, decodeByte, h, i.build_operands rest]

/-- Bits 7..6 of an opcode byte count the operand bytes of its instructions (R51, R61). -/
theorem OpcodeTable.operands_length_of_lookup (t : OpcodeTable) (ok : t.ok = true) (op : Byte) (i : Instr)
    (h : t.lookup op = some i.mnemonic) : i.operands.length = op.toNat / 64 := by
  rw [i.operands_length, ← (t.ok_fields ok i.mnemonic).1, t.lookup_some op _ h, opCount_eq_div]

/-! ### The ALU operations and their instructions -/

theorem Mnemonic.isAlu_iff (m : Mnemonic) : m.isAlu = true ↔ ∃ o : AluOp, o.mnemonic = m := by
  have hmem : m.isAlu = true ↔ m ∈ AluOp.all.map AluOp.mnemonic := by cases m <;> decide
  simp [hmem, AluOp.mem_all]

@[simp] theorem AluOp.instr_mnemonic (o : AluOp) (a b : Byte) : (o.instr a b).mnemonic = o.mnemonic := by
  cases o <;> rfl

/-- The operand bytes of an ALU instruction: both, or the first alone when the operation is unary. -/
theorem AluOp.instr_operands (o : AluOp) (a b : Byte) :
    (o.instr a b).operands = [a, b].take o.mnemonic.operandCount := by
  cases o <;> rfl

/-- At most two operand bytes, filled up with any others, are those of some pair. -/
theorem exists_take_pair (bytes : List Byte) (h : bytes.length ≤ 2) : ∃ a b, bytes = [a, b].take bytes.length := by
  match bytes, h with
  | [], _ => exact ⟨0#8, 0#8, rfl⟩
  | [a], _ => exact ⟨a, 0#8, rfl⟩
  | [a, b], _ => exact ⟨a, b, rfl⟩

/-- An instruction with an ALU operation's mnemonic is one of that operation. -/
theorem AluOp.exists_eq_instr (o : AluOp) (i : Instr) (h : i.mnemonic = o.mnemonic) : ∃ a b, i = o.instr a b := by
  have hlen : i.operands.length = o.mnemonic.operandCount := h ▸ i.operands_length
  obtain ⟨a, b, hops⟩ := exists_take_pair i.operands (hlen ▸ o.mnemonic.operandCount_le)
  refine ⟨a, b, i.eq_of_operands _ (by simpa using h) ?_⟩
  rw [o.instr_operands, ← hlen, ← hops]

/-- Bit 5 of a mnemonic's byte marks the ALU operations (R52, R61). -/
theorem OpcodeTable.getLsbD_five_iff (t : OpcodeTable) (ok : t.ok = true) (m : Mnemonic) :
    (t.byteOf m).getLsbD 5 = true ↔ ∃ o : AluOp, o.mnemonic = m := by
  rw [← m.isAlu_iff, ← (t.ok_fields ok m).2.1, opIsAlu]

/-- The selector of an ALU operation's own byte selects that operation, for selectors are distinct (R61). -/
theorem OpcodeTable.aluOf_opIdent (t : OpcodeTable) (ok : t.ok = true) (o : AluOp) :
    t.aluOf (opIdent (t.byteOf o.mnemonic)) = some o := by
  cases hf : t.aluOf (opIdent (t.byteOf o.mnemonic)) with
  | none => exact absurd BEq.rfl (List.find?_eq_none.1 hf o o.mem_all)
  | some p => rw [t.ok_selector_inj ok p o (by simpa using List.find?_some hf)]

/-! ### LDI -/

/-- LDI is the only instruction with an immediate (R56, R58). -/
theorem Mnemonic.format_eq_f2ri_iff (m : Mnemonic) : m.format = .f2ri ↔ m = .ldi := by
  cases m <;> decide

end Sys2Proof

namespace Sys2Proof.Machine

theorem exec_ldi_regByte (ra : Fin 8) (imm : Byte) (s : State) (ok : s.config.table.ok = true)
    (h : s.pc.toNat + 3 ≤ 255) :
    exec (.ldi (regByte ra) imm) s = .next { s.writeReg ra imm with pc := s.pc + 3#8 } := by
  simp only [exec, execLdi, resolve_regByte]
  exact transact_advance_ok .ldi s _ 3 (s.config.table.ok_length ok .ldi) h

end Sys2Proof.Machine
end

section
/-! The statements of `30_encoding.md`. -/

namespace Sys2Proof.Proofs

open Sys2Proof.Machine Sys2Proof.Claims

/-- Settles O3: what decodes is the opcode byte and `op[7:6]` operand bytes, and these decode before any bytes. -/
theorem lengthIsKnownFromOpcodeByte : Obligations.LengthIsKnownFromOpcodeByte := by
  unfold Obligations.LengthIsKnownFromOpcodeByte
  intro t op bytes rest i ok hd
  obtain ⟨hl, rfl⟩ := decode_inv t op bytes rest i hd
  rw [← t.operands_length_of_lookup ok op i hl]
  refine ⟨by simp; omega, fun more => ?_⟩
  rw [List.take_succ_cons, List.take_left, List.cons_append]
  exact decode_operands t op i more hl

/-- Settles O6: bit 5 is set on the bytes of ALU mnemonics only, and there the selectors are distinct. -/
theorem lowBitsSelectTheAluOperation : Obligations.LowBitsSelectTheAluOperation := by
  unfold Obligations.LowBitsSelectTheAluOperation
  intro t op m ok hl
  obtain rfl := t.lookup_some op m hl
  have hbit := t.getLsbD_five_iff ok m
  refine ⟨rfl, fun hset => ?_, fun hclear o ho => ?_⟩
  · obtain ⟨o, rfl⟩ := hbit.1 hset
    exact ⟨rfl, o, t.aluOf_opIdent ok o, o.exists_eq_instr⟩
  · rw [hbit.2 ⟨o, ho⟩] at hclear
    cases hclear

/-- Settles O38: LDI writes operand byte 2 as it stands, and no other mnemonic has its format. -/
theorem ldiWritesImmediateVerbatim : Obligations.LdiWritesImmediateVerbatim := by
  unfold Obligations.LdiWritesImmediateVerbatim
  exact ⟨exec_ldi_regByte, Mnemonic.format_eq_f2ri_iff⟩

end Sys2Proof.Proofs
end

section
/-! SUPPORT. Raising: the fetch of a byte outside the table, and an ALU operation outside its domain
(`60_exceptions.md` R114, R115). -/

namespace Sys2Proof.Machine

open Sys2Proof.Claims

/-- The claims' error entry is the model's. -/
theorem State.takeError_eq_errorEntry (s : State) (op : Byte) (e : Raised) :
    s.takeError op e = errorEntry s op e.kind e.detail := rfl

/-- A byte outside the table ends the fetch before any operand byte is read, so wherever the PC is (R70). -/
theorem fetch_of_not_in_table (s : State) (h : ∀ m, s.config.table.byteOf m ≠ s.mem.read s.pc.toNat) :
    fetch s = .error (.raised (s.mem.read s.pc.toNat) .unsupportedOpcode) := by
  have hl := (s.config.table.lookup_none _).2 h
  simp only [fetch, decodeByte, hl]

/-- The error entry of a fetch that raised. -/
theorem step_of_fetch_raised (s : State) (op : Byte) (e : Raised) (hrun : s.status = .running)
    (hf : fetch s = .error (.raised op e)) : step s = .next (errorEntry s op e.kind e.detail) := by
  simp only [step, hrun, hf, State.takeError_eq_errorEntry]

/-- The converse of `aluApply_eq_domainError`. -/
theorem aluApply_zeroDivisor (op : AluOp) (x y : Byte) (hop : op = .div ∨ op = .mod) (hy : y.toNat = 0) :
    aluApply op x y = .domainError := by
  rcases hop with rfl | rfl
  · exact if_pos hy
  · exact if_pos hy

/-- A domain error leaves nothing to write back: the effect is the error itself. -/
theorem aluBinary_of_domainError (op : AluOp) (ra rb : Fin 8) (s : State)
    (h : aluApply op (s.readReg ra) (s.readReg rb) = .domainError) :
    aluBinary op (regByte ra) (regByte rb) s = .error .arithmeticDomain := by
  simp only [aluBinary, resolve_regByte, bind, Except.bind, h, writeBack]

/-- The converse of `RaisedBy.zeroDivisor`. -/
theorem exec_zeroDivisor (op : AluOp) (ra rb : Fin 8) (s : State) (hop : op = .div ∨ op = .mod)
    (h : (s.readReg rb).toNat = 0) : Raises (op.instr (regByte ra) (regByte rb)) s .arithmeticDomain none := by
  have heff := aluBinary_of_domainError op ra rb s (aluApply_zeroDivisor op _ _ hop h)
  rcases hop with rfl | rfl
  · exact congrArg (transact .div s) heff
  · exact congrArg (transact .mod s) heff

end Sys2Proof.Machine
end

section
/-! The statements of `60_exceptions.md`. -/

namespace Sys2Proof.Proofs

open Sys2Proof.Machine Sys2Proof.Claims

/-- Settles O9: the fetch raises at the dispatch of the byte, before it reads an operand byte. -/
theorem unsupportedOpcodeIsFatal : Obligations.UnsupportedOpcodeIsFatal := by
  unfold Obligations.UnsupportedOpcodeIsFatal
  intro s hrun hbyte
  exact step_of_fetch_raised s _ _ hrun (fetch_of_not_in_table s hbyte)

/-- Settles O35: the ALU answers a domain error, which raises before the write back and before the advance. -/
theorem zeroDivisorWritesNothing : Obligations.ZeroDivisorWritesNothing := by
  unfold Obligations.ZeroDivisorWritesNothing
  intro ra rb s _ hzero
  exact ⟨exec_zeroDivisor .div ra rb s (.inl rfl) hzero, exec_zeroDivisor .mod ra rb s (.inr rfl) hzero⟩

end Sys2Proof.Proofs
end

section
/-! SUPPORT. Reading memory after consecutive bytes were written (`70_reset_and_hazards.md` R132). -/

namespace Sys2Proof.Machine

/-- Consecutive writes from `a` up leave every byte below `a` and every byte past the last one. -/
theorem Memory.read_writeAll_outside (bytes : List Byte) (m : Memory) (a b : Nat) (h : m.wf = true)
    (hlen : a + bytes.length ≤ 256) (hb : b < a ∨ a + bytes.length ≤ b) : (m.writeAll a bytes).read b = m.read b := by
  induction bytes generalizing m a with
  | nil => rfl
  | cons v rest ih =>
    simp only [List.length_cons] at hlen hb
    calc ((m.write a v).writeAll (a + 1) rest).read b
      _ = (m.write a v).read b := ih _ _ (Memory.wf_write m a v h (by omega)) (by omega) (by omega)
      _ = m.read b := Memory.read_write_other m a b v h (by omega)

/-- Consecutive writes from `a` up put byte `i` at address `a + i`. -/
theorem Memory.read_writeAll_add (bytes : List Byte) (m : Memory) (a i : Nat) (v : Byte) (h : m.wf = true)
    (hlen : a + bytes.length ≤ 256) (hi : bytes[i]? = some v) : (m.writeAll a bytes).read (a + i) = v := by
  induction bytes generalizing m a i with
  | nil => cases hi
  | cons w rest ih =>
    simp only [List.length_cons] at hlen
    have hw := Memory.wf_write m a w h (by omega)
    cases i with
    | zero =>
      cases hi
      calc ((m.write a v).writeAll (a + 1) rest).read a
        _ = (m.write a v).read a := Memory.read_writeAll_outside rest _ _ a hw (by omega) (by omega)
        _ = v := Memory.read_write_same m a v h
    | succ j =>
      rw [Nat.add_comm j 1, ← Nat.add_assoc]
      exact ih _ _ j hw (by omega) hi

end Sys2Proof.Machine
end

section
/-! The statements of `70_reset_and_hazards.md`. -/

namespace Sys2Proof.Proofs

open Sys2Proof.Machine Sys2Proof.Claims

/-- Settles O57: the load is consecutive writes from address 0 up, and an update of the memory alone. -/
theorem loadCopiesImageFromAddressZero : Obligations.LoadCopiesImageFromAddressZero := by
  unfold Obligations.LoadCopiesImageFromAddressZero
  intro s img hwf hlen
  have hfit : 0 + img.length ≤ 256 := by omega
  refine ⟨fun i v hi => ?_, fun x hx => ?_, rfl⟩
  · have hread := Memory.read_writeAll_add img s.mem 0 i v hwf hfit hi
    rwa [Nat.zero_add] at hread
  · exact Memory.read_writeAll_outside img s.mem 0 x hwf hfit (by omega)

end Sys2Proof.Proofs
end

section
/-! SUPPORT. Encoding: the rows of the opcode table, and the bytes that are in none of them (`30_encoding.md` R51 to
R62). -/

namespace Sys2Proof

/-- An instruction's own bytes decode to it, under a table that meets R61. -/
theorem decode_encode (t : OpcodeTable) (ok : t.ok = true) (i : Instr) (rest : List Byte) :
    decode t (encode t i ++ rest) = .ok (i, rest) :=
  decode_operands t _ i rest (t.lookup_byteOf ok i.mnemonic)

/-- A mnemonic's byte with its operand bytes behind it decodes to an instruction of that mnemonic. -/
theorem decode_byteOf (t : OpcodeTable) (ok : t.ok = true) (m : Mnemonic) (bytes : List Byte)
    (hlen : m.operandCount ≤ bytes.length) :
    ∃ i rest, decode t (t.byteOf m :: bytes) = .ok (i, rest) ∧ i.mnemonic = m := by
  have hl := t.lookup_byteOf ok m
  obtain ⟨i, rest, hd⟩ := decode_of_lookup t _ bytes m hl hlen
  have him := (decode_inv t _ bytes rest i hd).1
  exact ⟨i, rest, hd, Option.some.inj (him.symm.trans hl)⟩

/-- The count bits of a byte of the table are its mnemonic's operand count. -/
theorem OpcodeTable.opCount_of_lookup (t : OpcodeTable) (ok : t.ok = true) (op : Byte) (m : Mnemonic)
    (h : t.lookup op = some m) : opCount op = m.operandCount := by
  rw [← t.lookup_some op m h, (t.ok_fields ok m).1]

/-- A byte whose count bits are 3 is in no row (R61, constraint 6). -/
theorem OpcodeTable.lookup_of_opCount_three (t : OpcodeTable) (ok : t.ok = true) (op : Byte) (h : opCount op = 3) :
    t.lookup op = none := by
  refine Option.eq_none_iff_forall_ne_some.2 fun m hl => ?_
  have hcount := t.opCount_of_lookup ok op m hl
  have hle := m.operandCount_le
  omega

/-- No mnemonic is an ALU operation and sets the PC. -/
theorem Mnemonic.setsPc_of_isAlu (m : Mnemonic) (h : m.isAlu = true) : m.setsPc = false := by
  revert h
  cases m <;> decide

/-- A byte with both the ALU and the sets-PC bit is in no row (R61, constraints 3 and 4). -/
theorem OpcodeTable.lookup_of_alu_and_setsPc (t : OpcodeTable) (ok : t.ok = true) (op : Byte)
    (halu : opIsAlu op = true) (hpc : opSetsPc op = true) : t.lookup op = none := by
  refine Option.eq_none_iff_forall_ne_some.2 fun m hl => ?_
  obtain ⟨-, hfa, hfp⟩ := t.ok_fields ok m
  rw [t.lookup_some op m hl] at hfa hfp
  have hnot := m.setsPc_of_isAlu (hfa.symm.trans halu)
  rw [← hfp, hpc] at hnot
  cases hnot

/-- The values of the bytes in the table's rows: what `lookup` finds among 0 to 255. -/
theorem OpcodeTable.mem_rowValues (t : OpcodeTable) (n : Nat) :
    n ∈ Mnemonic.all.map (fun m => (t.byteOf m).toNat) ↔ n < 256 ∧ t.lookup (BitVec.ofNat 8 n) ≠ none := by
  rw [Ne, t.lookup_none, List.mem_map]
  constructor
  · rintro ⟨m, -, rfl⟩
    exact ⟨(t.byteOf m).isLt, fun h => h m (by simp)⟩
  · rintro ⟨hn, h⟩
    obtain ⟨m, hm⟩ := not_forall_not.1 h
    refine ⟨m, m.mem_all, ?_⟩
    rw [hm, BitVec.toNat_ofNat]
    omega

/-- A table with distinct bytes has a row for exactly 24 of the 256 bytes. -/
theorem OpcodeTable.supported_length (t : OpcodeTable) (ok : t.ok = true) :
    ((List.range 256).filter fun n => !decide (t.lookup (BitVec.ofNat 8 n) = none)).length = 24 := by
  have hinj : ∀ m n : Mnemonic, (t.byteOf m).toNat = (t.byteOf n).toNat → m = n := fun m n h =>
    t.ok_inj ok m n (BitVec.eq_of_toNat_eq h)
  have hnodup : (Mnemonic.all.map fun m => (t.byteOf m).toNat).Nodup :=
    List.Nodup.map hinj (by decide : Mnemonic.all.Nodup)
  refine List.Perm.length_eq (l₂ := Mnemonic.all.map fun m => (t.byteOf m).toNat) ?_
  refine (List.perm_ext_iff_of_nodup (List.nodup_range.filter _) hnodup).2 fun n => ?_
  rw [t.mem_rowValues, List.mem_filter, List.mem_range]
  simp

theorem OpcodeTable.unsupported_length (t : OpcodeTable) (ok : t.ok = true) :
    ((List.range 256).filter fun n => decide (t.lookup (BitVec.ofNat 8 n) = none)).length = 232 := by
  have hsum := List.length_eq_length_filter_add (l := List.range 256)
    fun n => decide (t.lookup (BitVec.ofNat 8 n) = none)
  rw [t.supported_length ok, List.length_range] at hsum
  omega

end Sys2Proof
end

section
/-! The statements of `30_encoding.md`: the two directions of the round trip, and the table's rows. -/

namespace Sys2Proof.Proofs

open Sys2Proof.Machine Sys2Proof.Claims

/-- Settles O1: the table finds the mnemonic's own byte, and the mnemonic takes its own operand bytes. -/
theorem decodeOfEncodeIsInstruction : Obligations.DecodeOfEncodeIsInstruction := by
  unfold Obligations.DecodeOfEncodeIsInstruction
  exact fun t i rest ok => decode_encode t ok i rest

/-- Settles O2: what decodes has its mnemonic's byte in front and its own operand bytes after it. -/
theorem decodedBytesAreTheEncoding : Obligations.DecodedBytesAreTheEncoding := by
  unfold Obligations.DecodedBytesAreTheEncoding
  intro t bytes rest i hd
  cases bytes with
  | nil => cases hd
  | cons op tail =>
    obtain ⟨hl, rfl⟩ := decode_inv t op tail rest i hd
    rw [← t.lookup_some op _ hl]
    rfl

/-- Settles O4: the lookup finds a byte iff it is some mnemonic's, and finds that mnemonic. -/
theorem decodeIsExactMatchOfOpcodeByte : Obligations.DecodeIsExactMatchOfOpcodeByte := by
  unfold Obligations.DecodeIsExactMatchOfOpcodeByte
  intro t op bytes ok
  refine ⟨fun hout => ?_, ?_⟩
  · have hl := (t.lookup_none op).2 hout
    simp only [decode, decodeByte, hl]
  · rintro m rfl hlen
    exact decode_byteOf t ok m bytes hlen

/-- Settles O5: the count 3 and the pair of bits contradict R61, and 24 distinct bytes have a row. -/
theorem unsupportedBytesOfEveryTable : Obligations.UnsupportedBytesOfEveryTable := by
  unfold Obligations.UnsupportedBytesOfEveryTable
  have hdefault : OpcodeTable.default.ok = true := by decide
  refine ⟨fun t op ok hop => ?_, hdefault, OpcodeTable.unsupported_length _ hdefault⟩
  rcases hop with hge | ⟨halu, hpc⟩
  · have hlt := op.isLt
    exact t.lookup_of_opCount_three ok op (by rw [opCount_eq_div]; omega)
  · exact t.lookup_of_alu_and_setsPc ok op halu hpc

/-- Settles O7: each word is evaluated under the default table. -/
theorem writtenOutWordsDecode : Obligations.WrittenOutWordsDecode := by
  unfold Obligations.WrittenOutWordsDecode
  decide

end Sys2Proof.Proofs
end

section
/-! SUPPORT. Running one instruction: what commits or raises in the inversion `exec_cases` does so, and the order of the
checks (`60_exceptions.md` R120). -/

namespace Sys2Proof

/-! ### ALU instructions and the others -/

/-- An instruction is one of an ALU operation, or its mnemonic is no ALU mnemonic. -/
theorem Instr.alu_or_not (i : Instr) : (∃ (op : AluOp) (a b : Byte), i = op.instr a b) ∨ i.mnemonic.isAlu = false := by
  cases halu : i.mnemonic.isAlu with
  | false => exact .inr rfl
  | true =>
    obtain ⟨op, hop⟩ := i.mnemonic.isAlu_iff.1 halu
    exact .inl ⟨op, op.exists_eq_instr i hop.symm⟩

/-- The register operands of an ALU instruction: both, or the first alone when the operation is unary. -/
theorem AluOp.instr_registerOperands (op : AluOp) (a b : Byte) :
    (op.instr a b).registerOperands = [a, b].take op.mnemonic.operandCount := by
  cases op <;> rfl

theorem AluOp.operandCount_eq (op : AluOp) : op.mnemonic.operandCount = 1 ∨ op.mnemonic.operandCount = 2 := by
  cases op <;> decide

/-- The second operand byte of a unary ALU operation is no part of its instruction. -/
theorem AluOp.instr_unary (op : AluOp) (h : op.mnemonic.operandCount = 1) (a b c : Byte) :
    op.instr a b = op.instr a c :=
  Instr.eq_of_operands _ _ (by simp) (by simp [AluOp.instr_operands, h])

theorem AluOp.eq_cmp_of_mnemonic (op : AluOp) (h : op.mnemonic = .cmp) : op = .cmp := by
  cases op <;> cases h
  rfl

end Sys2Proof

namespace Sys2Proof.Machine

open Sys2Proof.Claims

/-! ### Every instruction is one transition -/

theorem transact_next (m : Mnemonic) (s : State) (r : Effect) : ∃ t, transact m s r = .next t := by
  rcases transact_cases m s r with ⟨-, -, w, -, -, h⟩ | ⟨e, -, h⟩
  · exact ⟨w, h⟩
  · exact ⟨_, h⟩

theorem exec_next (i : Instr) (s : State) : ∃ t, exec i s = .next t := by
  cases i with
  | hlt => exact transact_next .hlt s (.ok (s, .halt))
  | _ => exact transact_next _ s _

theorem exec_alu (op : AluOp) (a b : Byte) (s : State) :
    exec (op.instr a b) s = transact op.mnemonic s
      (if op.mnemonic.operandCount = 2 then aluBinary op a b s else aluUnary op a s) := by
  cases op <;> rfl

theorem aluApply_unary (op : AluOp) (h : op.mnemonic.operandCount = 1) (x y z : Byte) :
    aluApply op x y = aluApply op x z := by
  cases op <;> cases h <;> rfl

theorem exec_alu_of_write (op : AluOp) (ra : Fin 8) (b x v : Byte) (s : State)
    (hx : (∃ rb, b = regByte rb ∧ x = s.readReg rb) ∨ op.mnemonic.operandCount = 1)
    (hv : aluApply op (s.readReg ra) x = .write v) :
    exec (op.instr (regByte ra) b) s = transact op.mnemonic s (.ok (s.writeReg ra v, .advance)) := by
  rw [exec_alu]
  rcases op.operandCount_eq with hone | htwo
  · rw [aluApply_unary op hone _ x 0#8] at hv
    simp only [hone, aluUnary, resolve_regByte, bind, Except.bind, hv, writeBack]
    rfl
  · obtain ⟨rb, rfl, rfl⟩ := hx.resolve_right (by omega)
    simp only [htwo, aluBinary, resolve_regByte, bind, Except.bind, hv, writeBack]
    rfl

/-- The converse of `exec_cases` for what is committed. -/
theorem exec_of_committed {s w : State} {i : Instr} {act : Action} (c : Committed s i w act) :
    exec i s = transact i.mnemonic s (.ok (w, act)) := by
  cases c with
  | alu op a b ra x v ha hop hx hv =>
    rw [ha, exec_alu_of_write op ra b x v s hx hv, AluOp.instr_mnemonic]
  | cmp ra rb =>
    simp only [exec, execCmp, aluBinary, resolve_regByte]
    rfl
  | ldi ra imm =>
    simp only [exec, execLdi, resolve_regByte]
    rfl
  | prn ra =>
    simp only [exec, execPrn, resolve_regByte]
    rfl
  | hlt => rfl
  | push ra h =>
    simp only [exec, execPush, resolve_regByte, pushByte_ok s _ h]
    rfl
  | popEmpty ra h hp =>
    simp only [exec, execPop, resolve_regByte, h, hp]
    rfl
  | pop ra h h0 =>
    simp only [exec, execPop, resolve_regByte, bind, Except.bind, h, if_false, memRead_toNat, decrementSp_ok _ h0]
    rfl
  | call ra h ret hr =>
    simp only [exec, execCall, resolve_regByte, ← hr, checkAddr_toNat, pushByte_ok s _ h]
    rfl
  | ret h h0 =>
    simp only [exec, execRet, h, if_false, memRead_toNat, decrementSp_ok s h0]
    rfl
  | jmp ra =>
    simp only [exec, execJmp, resolve_regByte]
    rfl
  | jeqTaken ra h =>
    simp only [exec, execJeq, branchIf, resolve_regByte, h]
    rfl
  | jeqNot ra h n hn =>
    simp only [exec, execJeq, branchIf, resolve_regByte, h, ← hn, checkAddr_toNat]
    rfl
  | jneTaken ra h =>
    simp only [exec, execJne, branchIf, resolve_regByte, h]
    rfl
  | jneNot ra h n hn =>
    simp only [exec, execJne, branchIf, resolve_regByte, h, ← hn, checkAddr_toNat]
    rfl

/-! ### The control action of each instruction -/

/-- An instruction that sets the PC ends with SetPC, HLT with Halt, and any other with Advance (R74). -/
theorem Committed.action {s w : State} {i : Instr} {act : Action} (c : Committed s i w act) :
    (act = .advance ∧ i.mnemonic.setsPc = false ∧ i ≠ .hlt) ∨ ((∃ n, act = .setPc n) ∧ i.mnemonic.setsPc = true) ∨
      (act = .halt ∧ i = .hlt ∧ w = s) := by
  cases c with
  | alu op a b ra x v ha hop hx hv => exact .inl ⟨rfl, by cases op <;> rfl, by cases op <;> nofun⟩
  | hlt => exact .inr (.inr ⟨rfl, rfl, rfl⟩)
  | cmp | ldi | prn | push | popEmpty | pop => exact .inl ⟨rfl, rfl, nofun⟩
  | call | ret | jmp | jeqTaken | jeqNot | jneTaken | jneNot => exact .inr (.inl ⟨⟨_, rfl⟩, rfl⟩)

/-! ### Step 3 of R120: the register operands -/

theorem regByte_toNat (r : Fin 8) : (regByte r).toNat = r.val := by
  simp only [regByte, BitVec.toNat_ofNat]
  omega

theorem exists_eq_regByte (a : Byte) (h : a.toNat < 8) : ∃ r : Fin 8, a = regByte r :=
  ⟨⟨a.toNat, h⟩, by simp [regByte]⟩

theorem registerError_none (i : Instr) (h : registerError i = none) (r : Byte) (hr : r ∈ i.registerOperands) :
    ∃ q : Fin 8, r = regByte q := by
  simp only [registerError, Option.map_eq_none_iff, List.find?_eq_none, decide_eq_true_eq] at h
  have := h r hr
  exact exists_eq_regByte r (by omega)

theorem registerError_regByte (i : Instr) (r : Fin 8) (h : i.registerOperands = [regByte r]) :
    registerError i = none := by
  simp [registerError, h, regByte_toNat]

/-- An effect that begins with the check of a bad register byte is that error. -/
theorem transact_resolve_error (m : Mnemonic) (s : State) (a : Byte) (k : Fin 8 → Effect) (h : 8 ≤ a.toNat) :
    transact m s (resolve a >>= k) =
      .next (errorEntry s (s.config.table.byteOf m) .registerOutOfRange (some a.toNat)) := by
  rw [resolve_error a h]
  rfl

theorem aluBinary_resolve_error (op : AluOp) (a b r : Byte) (s : State)
    (h : [a, b].find? (fun c => decide (8 ≤ c.toNat)) = some r) :
    transact op.mnemonic s (aluBinary op a b s) =
      .next (errorEntry s (s.config.table.byteOf op.mnemonic) .registerOutOfRange (some r.toNat)) := by
  by_cases ha : 8 ≤ a.toNat
  · obtain rfl : a = r := by simpa [ha] using h
    exact transact_resolve_error _ s a _ ha
  · obtain ⟨q, rfl⟩ := exists_eq_regByte a (by omega)
    obtain ⟨hb, rfl⟩ : 8 ≤ b.toNat ∧ b = r := by simpa [ha] using h
    simp only [aluBinary, resolve_regByte]
    exact transact_resolve_error _ s b _ hb

/-- The first bad register byte is raised, before anything else the instruction checks. -/
theorem raises_registerOutOfRange (i : Instr) (s : State) (r : Byte)
    (h : (i.registerOperands.find? fun b => decide (8 ≤ b.toNat)) = some r) :
    Raises i s .registerOutOfRange (some r.toNat) := by
  have hone : ∀ a : Byte, [a].find? (fun b => decide (8 ≤ b.toNat)) = some r → 8 ≤ a.toNat ∧ a = r := by simp
  rcases i.alu_or_not with ⟨op, a, b, rfl⟩ | hna
  · rw [AluOp.instr_registerOperands] at h
    rw [Raises, exec_alu, AluOp.instr_mnemonic]
    rcases op.operandCount_eq with hc | hc <;> rw [hc] at h ⊢
    · obtain ⟨ha, rfl⟩ := hone a h
      exact transact_resolve_error _ s a _ ha
    · exact aluBinary_resolve_error op a b r s h
  · cases i with
    | hlt | ret => cases h
    | ldi a | prn a | push a | pop a | call a | jmp a | jeq a | jne a =>
      obtain ⟨ha, rfl⟩ := hone a h
      exact transact_resolve_error _ s a _ ha
    | _ => cases hna

/-! ### Step 4 of R120: the instruction's own checks -/

theorem operandValue_regByte (s : State) (r : Fin 8) : operandValue s (regByte r) = (s.readReg r).toNat := by
  simp [operandValue, regByte_toNat]

theorem ownError_alu (op : AluOp) (a b : Byte) (s : State) :
    ownError (op.instr a b) s =
      if (op = .div ∨ op = .mod) ∧ operandValue s b = 0 then some (.arithmeticDomain, none) else none := by
  cases op <;> simp [ownError, AluOp.instr]

/-- What the instruction's own checks decide: its error, or that it commits (up to its advance). -/
def OwnChecksDecide (i : Instr) (s : State) : Prop :=
  (∃ k d, ownError i s = some (k, d) ∧ Raises i s k d) ∨ (ownError i s = none ∧ ∃ w act, Committed s i w act)

theorem ownChecksDecide_alu (op : AluOp) (ra rb : Fin 8) (s : State) :
    OwnChecksDecide (op.instr (regByte ra) (regByte rb)) s := by
  rw [OwnChecksDecide, ownError_alu, operandValue_regByte]
  cases hv : aluApply op (s.readReg ra) (s.readReg rb) with
  | domainError =>
    obtain ⟨hop, hz⟩ := aluApply_eq_domainError _ _ _ hv
    exact .inl ⟨_, _, if_pos ⟨hop, hz⟩, exec_zeroDivisor op ra rb s hop hz⟩
  | flags f =>
    obtain ⟨rfl, -⟩ := aluApply_eq_flags _ _ _ _ hv
    exact .inr ⟨if_neg (by simp), _, _, .cmp ra rb⟩
  | write v =>
    refine .inr ⟨if_neg ?_, _, _, .alu op _ _ ra _ v rfl ?_ (.inl ⟨rb, rfl, rfl⟩) hv⟩
    · rintro ⟨hop, hz⟩
      rw [aluApply_zeroDivisor op _ _ hop hz] at hv
      cases hv
    · rintro rfl
      cases hv

theorem ownChecksDecide_push (ra : Fin 8) (s : State) : OwnChecksDecide (.push (regByte ra)) s := by
  have hlt := s.sp.isLt
  by_cases h : s.sp.toNat = 255
  · refine .inl ⟨_, _, if_pos h, ?_⟩
    simp only [Raises, exec, execPush, resolve_regByte, pushByte_error s _ (by omega : 255 < s.sp.toNat + 1)]
    rfl
  · exact .inr ⟨if_neg h, _, _, .push ra (by omega)⟩

theorem ownChecksDecide_call (ra : Fin 8) (s : State) : OwnChecksDecide (.call (regByte ra)) s := by
  have hlt := s.sp.isLt
  by_cases hpc : 255 < s.pc.toNat + 2
  · refine .inl ⟨_, _, if_pos hpc, ?_⟩
    simp only [Raises, exec, execCall, resolve_regByte,
      checkAddr_error _ (by omega : ¬ (0 ≤ (s.pc.toNat : Int) + 2 ∧ _))]
    rfl
  · have hret : checkAddr (s.pc.toNat + 2) = .ok (s.pc + 2#8) := checkAddr_add s.pc 2 (by omega)
    by_cases h : s.sp.toNat = 255
    · refine .inl ⟨_, _, (if_neg hpc).trans (if_pos h), ?_⟩
      simp only [Raises, exec, execCall, resolve_regByte, hret, pushByte_error s _ (by omega : 255 < s.sp.toNat + 1)]
      rfl
    · exact .inr ⟨(if_neg hpc).trans (if_neg h), _, _, .call ra (by omega) _ (checkAddr_eq_ok _ _ hret)⟩

theorem sp_toNat_eq_sentinel (s : State) : s.sp.toNat = 0xF4 ↔ s.sp = sentinel :=
  BitVec.toNat_inj (y := sentinel)

theorem ownChecksDecide_ret (s : State) : OwnChecksDecide .ret s := by
  by_cases hs : s.sp = sentinel
  · refine .inl ⟨_, _, if_pos ((sp_toNat_eq_sentinel s).2 hs), ?_⟩
    simp only [Raises, exec, execRet, hs, if_true]
    rfl
  · have hs' := mt (sp_toNat_eq_sentinel s).1 hs
    by_cases h : s.sp.toNat = 0
    · refine .inl ⟨_, _, (if_neg hs').trans (if_pos h), ?_⟩
      simp only [Raises, exec, execRet, hs, if_false, memRead_toNat, decrementSp_error s h]
      rfl
    · exact .inr ⟨(if_neg hs').trans (if_neg h), _, _, .ret hs (by omega)⟩

/-- The SP that POP decrements: the byte it loaded when its register is R7. -/
theorem writeReg_sp_toNat (s : State) (ra : Fin 8) (v : Byte) :
    (s.writeReg ra v).sp.toNat = if (regByte ra).toNat = 7 then v.toNat else s.sp.toNat := by
  have hra : (regByte ra).toNat = 7 ↔ ra = spIndex := by rw [regByte_toNat, Fin.ext_iff]; rfl
  rw [State.sp, State.readReg_writeReg, if_congr hra rfl rfl]
  split <;> rfl

theorem ownError_pop_of_ne_sentinel (ra : Fin 8) (s : State) (hs : s.sp ≠ sentinel) :
    ownError (.pop (regByte ra)) s =
      if (s.writeReg ra (s.mem.read s.sp.toNat)).sp.toNat = 0 then some (.memoryOutOfRange, some (-1)) else none := by
  rw [writeReg_sp_toNat]
  exact if_neg (mt (sp_toNat_eq_sentinel s).1 hs)

theorem ownChecksDecide_pop (ra : Fin 8) (s : State) : OwnChecksDecide (.pop (regByte ra)) s := by
  by_cases hs : s.sp = sentinel
  · have hown : ownError (.pop (regByte ra)) s = match s.config.underflowPolicy with
        | .fatal => some (.stackUnderflow, none)
        | .silent => none := if_pos ((sp_toNat_eq_sentinel s).2 hs)
    cases hp : s.config.underflowPolicy with
    | silent => exact .inr ⟨by rw [hown, hp], _, _, .popEmpty ra hs hp⟩
    | fatal =>
      refine .inl ⟨.stackUnderflow, none, by rw [hown, hp], ?_⟩
      simp only [Raises, exec, execPop, resolve_regByte, bind, Except.bind, hs, if_true, hp]
      rfl
  · have hown := ownError_pop_of_ne_sentinel ra s hs
    by_cases h : (s.writeReg ra (s.mem.read s.sp.toNat)).sp.toNat = 0
    · refine .inl ⟨_, _, hown.trans (if_pos h), ?_⟩
      simp only [Raises, exec, execPop, resolve_regByte, bind, Except.bind, hs, if_false, memRead_toNat,
        decrementSp_error _ h]
      rfl
    · exact .inr ⟨hown.trans (if_neg h), _, _, .pop ra hs (by omega)⟩

/-- A conditional jump not taken that cannot fall through raises. -/
theorem transact_branchIf_error (m : Mnemonic) (ra : Fin 8) (s : State) (h : 255 < s.pc.toNat + 2) :
    transact m s (branchIf false (regByte ra) s) =
      .next (errorEntry s (s.config.table.byteOf m) .memoryOutOfRange (some (s.pc.toNat + 2))) := by
  simp only [branchIf, resolve_regByte, checkAddr_error _ (by omega : ¬ (0 ≤ (s.pc.toNat : Int) + 2 ∧ _))]
  rfl

/-- The checks of a conditional jump: it jumps, falls through, or raises for the fall-through. -/
theorem ownChecksDecide_branch (i : Instr) (ra : Fin 8) (s : State) (taken : Bool)
    (hown : ownError i s = if taken = false ∧ 255 < s.pc.toNat + 2 then
      some (ErrorKind.memoryOutOfRange, some ((s.pc.toNat : Int) + 2)) else none)
    (hexec : exec i s = transact i.mnemonic s (branchIf taken (regByte ra) s))
    (hjump : taken = true → Committed s i s (.setPc (s.readReg ra)))
    (hfall : taken = false → ∀ n : Byte, (n.toNat : Int) = s.pc.toNat + 2 → Committed s i s (.setPc n)) :
    OwnChecksDecide i s := by
  by_cases h : taken = false ∧ 255 < s.pc.toNat + 2
  · refine .inl ⟨_, _, hown.trans (if_pos h), ?_⟩
    rw [Raises, hexec, h.1]
    exact transact_branchIf_error _ ra s h.2
  · refine .inr ⟨hown.trans (if_neg h), ?_⟩
    cases ht : taken with
    | true => exact ⟨_, _, hjump ht⟩
    | false =>
      have hn := checkAddr_add s.pc 2 (not_lt.1 fun hpc => h ⟨ht, hpc⟩)
      exact ⟨_, _, hfall ht _ (checkAddr_eq_ok _ _ hn)⟩

theorem ownChecksDecide_jeq (ra : Fin 8) (s : State) : OwnChecksDecide (.jeq (regByte ra)) s :=
  ownChecksDecide_branch _ ra s s.flags.e rfl rfl (.jeqTaken ra) (.jeqNot ra)

theorem ownChecksDecide_jne (ra : Fin 8) (s : State) : OwnChecksDecide (.jne (regByte ra)) s := by
  refine ownChecksDecide_branch _ ra s (!s.flags.e) ?_ rfl (fun h => ?_) (fun h => ?_)
  · simp only [ownError, Bool.not_eq_false']
  · exact .jneTaken ra (by simpa using h)
  · exact .jneNot ra (by simpa using h)

/-- With every register operand naming a register, an instruction raises the first of its own checks that fails, or
commits. -/
theorem ownChecksDecide (i : Instr) (s : State) (hreg : registerError i = none) : OwnChecksDecide i s := by
  rcases i.alu_or_not with ⟨op, a, b, rfl⟩ | hna
  · have hnames := registerError_none _ hreg
    rw [AluOp.instr_registerOperands] at hnames
    rcases op.operandCount_eq with hc | hc <;> rw [hc] at hnames
    · obtain ⟨ra, rfl⟩ := hnames a (by simp)
      rw [op.instr_unary hc (regByte ra) b (regByte 0)]
      exact ownChecksDecide_alu op ra 0 s
    · obtain ⟨ra, rfl⟩ := hnames a (by simp)
      obtain ⟨rb, rfl⟩ := hnames b (by simp)
      exact ownChecksDecide_alu op ra rb s
  · cases i with
    | hlt => exact .inr ⟨rfl, _, _, .hlt⟩
    | ret => exact ownChecksDecide_ret s
    | ldi a imm =>
      obtain ⟨ra, rfl⟩ := registerError_none _ hreg a (.head _)
      exact .inr ⟨rfl, _, _, .ldi ra imm⟩
    | prn a =>
      obtain ⟨ra, rfl⟩ := registerError_none _ hreg a (.head _)
      exact .inr ⟨rfl, _, _, .prn ra⟩
    | jmp a =>
      obtain ⟨ra, rfl⟩ := registerError_none _ hreg a (.head _)
      exact .inr ⟨rfl, _, _, .jmp ra⟩
    | push a =>
      obtain ⟨ra, rfl⟩ := registerError_none _ hreg a (.head _)
      exact ownChecksDecide_push ra s
    | pop a =>
      obtain ⟨ra, rfl⟩ := registerError_none _ hreg a (.head _)
      exact ownChecksDecide_pop ra s
    | call a =>
      obtain ⟨ra, rfl⟩ := registerError_none _ hreg a (.head _)
      exact ownChecksDecide_call ra s
    | jeq a =>
      obtain ⟨ra, rfl⟩ := registerError_none _ hreg a (.head _)
      exact ownChecksDecide_jeq ra s
    | jne a =>
      obtain ⟨ra, rfl⟩ := registerError_none _ hreg a (.head _)
      exact ownChecksDecide_jne ra s
    | _ => cases hna

theorem raises_of_ownError (i : Instr) (s : State) (k : ErrorKind) (d : Option Int) (hreg : registerError i = none)
    (h : ownError i s = some (k, d)) : Raises i s k d := by
  rcases ownChecksDecide i s hreg with ⟨k', d', h', hraise⟩ | ⟨h', -⟩ <;> cases h'.symm.trans h
  exact hraise

/-! ### Step 5 of R120 and the whole order -/

/-- An instruction whose checks all pass commits, and its control action is done. -/
def Commits (i : Instr) (s t : State) : Prop :=
  ∃ w act, Committed s i w act ∧ applyAction (s.config.table.byteOf i.mnemonic) w act = .ok t

theorem exec_of_commits {i : Instr} {s t : State} (h : Commits i s t) : exec i s = .next t := by
  obtain ⟨w, act, c, ha⟩ := h
  rw [exec_of_committed c]
  simp only [transact, ha]

theorem Commits.error_eq {i : Instr} {s t : State} (h : Commits i s t) : t.error = s.error := by
  obtain ⟨w, act, c, ha⟩ := h
  obtain ⟨-, -, -, herr⟩ := c.keeps
  rw [← herr]
  rcases applyAction_eq_ok _ _ _ _ ha with ⟨-, n, -, rfl⟩ | ⟨n, -, rfl⟩ | ⟨-, rfl⟩ <;> rfl

/-- What a commit that advances leaves, below the top of memory. -/
theorem exec_of_committed_advance {s w : State} {i : Instr} (c : Committed s i w .advance) (n : Nat)
    (ok : s.config.table.ok = true) (hn : i.mnemonic.operandCount + 1 = n) (h : s.pc.toNat + n ≤ 255) :
    exec i s = .next { w with pc := s.pc + BitVec.ofNat 8 n } := by
  obtain ⟨-, hpc, -, -⟩ := c.keeps
  rw [← hpc] at h ⊢
  rw [exec_of_committed c]
  exact transact_advance_ok _ s w n (by rw [s.config.table.ok_length ok, hn]) h

/-- What a commit that sets the PC leaves. -/
theorem exec_of_committed_setPc {s w : State} {i : Instr} {n : Byte} (c : Committed s i w (.setPc n)) :
    exec i s = .next { w with pc := n } :=
  exec_of_committed c

/-- The length of a fetched instruction, from its opcode byte and from its operand bytes. -/
theorem opCount_byteOf_mnemonic (t : OpcodeTable) (ok : t.ok = true) (i : Instr) :
    opCount (t.byteOf i.mnemonic) = i.operands.length := by
  rw [(t.ok_fields ok i.mnemonic).1, i.operands_length]

/-- An advance that stays below address 256. -/
theorem applyAction_advance (op : Byte) (w : State) (n : Nat) (hn : opCount op + 1 = n) (h : w.pc.toNat + n ≤ 255) :
    applyAction op w .advance = .ok { w with pc := w.pc + BitVec.ofNat 8 n } := by
  have hsum : (w.pc.toNat : Int) + opCount op + 1 = w.pc.toNat + n := by omega
  simp only [applyAction, hsum, checkAddr_add w.pc n h]
  rfl

/-- The advance is the last check: a working copy raises its error or is committed. -/
theorem advanceError_cases {s w : State} {i : Instr} {act : Action} (ok : s.config.table.ok = true)
    (c : Committed s i w act) :
    (∃ k d, advanceError i s = some (k, d) ∧ Raises i s k d) ∨ (advanceError i s = none ∧ ∃ t, Commits i s t) := by
  obtain ⟨-, hpc, -, -⟩ := c.keeps
  rcases c.action with ⟨rfl, hset, hhlt⟩ | ⟨⟨n, rfl⟩, hset⟩ | ⟨rfl, rfl, -⟩
  · have hno : ¬ (i.mnemonic.setsPc = true ∨ i = .hlt) := by simp [hset, hhlt]
    have hlen := opCount_byteOf_mnemonic s.config.table ok i
    have hw : w.pc.toNat = s.pc.toNat := by rw [hpc]
    by_cases h : 255 < s.pc.toNat + i.operands.length + 1
    · refine .inl ⟨_, _, (if_neg hno).trans (if_pos h), ?_⟩
      rw [Raises, exec_of_committed c, transact_advance_error _ s w (i.operands.length + 1) (by omega) (by omega), hw]
      rfl
    · have hadv := applyAction_advance (s.config.table.byteOf i.mnemonic) w (i.operands.length + 1) (by omega)
        (by omega)
      exact .inr ⟨(if_neg hno).trans (if_neg h), _, w, _, c, hadv⟩
  · exact .inr ⟨if_pos (.inl hset), _, w, _, c, rfl⟩
  · exact .inr ⟨if_pos (.inr rfl), _, w, _, c, rfl⟩

/-- The whole order of R120, steps 3 to 5: the first check that fails is raised, and with none the instruction
commits. -/
theorem firstError_cases (i : Instr) (s : State) (ok : s.config.table.ok = true) :
    (∃ k d, firstError i s = some (k, d) ∧ Raises i s k d) ∨ (firstError i s = none ∧ ∃ t, Commits i s t) := by
  rw [firstError]
  cases hreg : registerError i with
  | some e =>
    obtain ⟨r, hr, rfl⟩ := Option.map_eq_some_iff.1 hreg
    exact .inl ⟨_, _, rfl, raises_registerOutOfRange i s r hr⟩
  | none =>
    rcases ownChecksDecide i s hreg with ⟨k, d, hown, hraise⟩ | ⟨hown, w, act, c⟩
    · rw [hown]
      exact .inl ⟨k, d, rfl, hraise⟩
    · rw [hown]
      exact advanceError_cases ok c

end Sys2Proof.Machine
end

section
/-! SUPPORT. The transition: its inversion, its progress from Running, what a commit keeps, and the invariant
(`40_execution_loop.md` R67 to R77, `20_memory.md` R34). -/

namespace Sys2Proof.Machine

open Sys2Proof.Claims

/-! ### What a fetch says about the bytes at the PC -/

theorem fetchCount_eq (c : Config) (ok : c.table.ok = true) (m : Mnemonic) :
    fetchCount c (c.table.byteOf m) = operandBytesFetched c m :=
  fetchCount_byteOf c m ok

/-- A fetched instruction lies below address 256, and its operand bytes stand behind its opcode byte. -/
theorem fetch_operands (s : State) (ok : s.config.table.ok = true) (i : Instr) (h : fetch s = .ok i) :
    s.pc.toNat + i.operands.length ≤ 255 ∧
    ∀ j (hj : j < i.operands.length), i.operands[j] = s.mem.read (s.pc.toNat + 1 + j) := by
  rcases fetch_cases s ok with ⟨j, hf, -, -, hlen, hops⟩ | ⟨hf, -⟩ | ⟨hf, -⟩ <;> rw [h] at hf <;> cases hf
  exact ⟨hlen, hops⟩

/-- A fetch that fails found a byte outside the table, or ran past address 255. -/
theorem fetch_raised (s : State) (ok : s.config.table.ok = true) (op : Byte) (e : Raised)
    (h : fetch s = .error (.raised op e)) :
    (e = .unsupportedOpcode ∧ ∀ m, ¬ At s m) ∨
    (e = .memoryOutOfRange 256 ∧ ∃ m, At s m ∧ 255 < s.pc.toNat + operandBytesFetched s.config m) := by
  rcases fetch_cases s ok with ⟨i, hf, -⟩ | ⟨hf, hout⟩ | ⟨hf, m, hm, htop⟩ <;> rw [h] at hf <;> cases hf
  · exact .inl ⟨rfl, fun m hm => hout m hm.symm⟩
  · rw [← hm, fetchCount_eq s.config ok m] at htop
    exact .inr ⟨rfl, m, hm.symm, htop⟩

theorem fetch_of_past_memory (s : State) (ok : s.config.table.ok = true) (m : Mnemonic) (hm : At s m)
    (h : 255 < s.pc.toNat + operandBytesFetched s.config m) :
    fetch s = .error (.raised (s.mem.read s.pc.toNat) (.memoryOutOfRange 256)) := by
  have hl := s.config.table.lookup_byteOf ok m
  have hcount := fetchCount_range s.config m ok
  rw [fetchCount_eq s.config ok m] at hcount
  have hops := fetchOperands_error s _ _ (fetchCount_eq s.config ok m) hcount.2 h
  rw [At] at hm
  simp only [fetch, decodeByte, hm, hl, hops]

/-- A fetch of the table's bytes that stays in memory gives the instruction they decode to. -/
theorem fetch_of_decode (s : State) (ok : s.config.table.ok = true) (i : Instr) (rest : List Byte)
    (hd : decode s.config.table (bytesAt s 3) = .ok (i, rest))
    (htwo : s.config.operandFetch = .alwaysTwo → s.pc.toNat + 2 ≤ 255) : fetch s = .ok i := by
  rw [bytesAt_three] at hd
  obtain ⟨hl, hops⟩ := decode_inv _ _ _ _ _ hd
  have hbyte := s.config.table.lookup_some _ _ hl
  rcases fetch_cases s ok with ⟨j, hf, -⟩ | ⟨-, hout⟩ | ⟨-, m, hm, htop⟩
  · obtain ⟨rest', hd'⟩ := decode_bytesAt_of_fetch s ok j hf
    rw [bytesAt_three, hd] at hd'
    cases hd'
    exact hf
  · exact absurd hbyte (hout _)
  · exfalso
    rw [← hbyte, fetchCount_eq s.config ok] at htop
    cases hmode : s.config.operandFetch with
    | alwaysTwo =>
      have := htwo hmode
      simp only [operandBytesFetched, hmode] at htop
      omega
    | byCount =>
      simp only [operandBytesFetched, hmode] at htop
      have hlen := congrArg List.length hops
      rw [List.length_append, List.length_append, i.operands_length] at hlen
      have hpc := s.pc.isLt
      split at hlen <;> split at hlen <;> simp only [List.length_cons, List.length_nil] at hlen <;> omega

/-! ### The transition: progress and inversion -/

theorem step_of_fetch (s : State) (i : Instr) (hrun : s.status = .running) (hf : fetch s = .ok i) :
    step s = exec i s := by
  simp only [step, hrun, hf]

/-- Under a legal table Running always has a transition. -/
theorem step_next_of_running (s : State) (ok : s.config.table.ok = true) (hrun : s.status = .running) :
    ∃ t, step s = .next t := by
  rcases fetch_cases s ok with ⟨i, hf, -⟩ | ⟨hf, -⟩ | ⟨hf, -⟩
  · rw [step_of_fetch s i hrun hf]
    exact exec_next i s
  · exact ⟨_, step_of_fetch_raised s _ _ hrun hf⟩
  · exact ⟨_, step_of_fetch_raised s _ _ hrun hf⟩

theorem step_of_halted (s : State) (h : s.status = .halted) : step s = .fault .halted := by
  simp only [step, h]

/-- What one transition does: it commits the fetched instruction, or makes the error entry of the instruction or of the
fetch. -/
theorem step_cases (s t : State) (h : step s = .next t) :
    (∃ i, fetch s = .ok i ∧ At s i.mnemonic ∧ Commits i s t) ∨
    (∃ i e, fetch s = .ok i ∧ At s i.mnemonic ∧ RaisedBy s i e ∧ t = s.takeError (s.mem.read s.pc.toNat) e) ∨
    (∃ e, fetch s = .error (.raised (s.mem.read s.pc.toNat) e) ∧ t = s.takeError (s.mem.read s.pc.toNat) e) := by
  obtain ⟨-, ⟨i, hf, hb, hx⟩ | ⟨e, hf, rfl⟩⟩ := step_inv s t h
  · rcases exec_cases i s t hx with hc | ⟨e, hr, rfl⟩
    · exact .inl ⟨i, hf, hb.symm, hc⟩
    · exact .inr (.inl ⟨i, e, hf, hb.symm, hr, by rw [hb]⟩)
  · exact .inr (.inr ⟨e, hf, rfl⟩)

/-! ### What a commit keeps -/

/-- The PC update writes only the PC and the status. -/
theorem applyAction_keeps (op : Byte) (w t : State) (act : Action) (h : applyAction op w act = .ok t) :
    t.config = w.config ∧ t.regs = w.regs ∧ t.error = w.error ∧ t.mem = w.mem := by
  rcases applyAction_eq_ok op w t act h with ⟨-, n, -, rfl⟩ | ⟨n, -, rfl⟩ | ⟨-, rfl⟩ <;> exact ⟨rfl, rfl, rfl, rfl⟩

theorem Commits.config_eq {i : Instr} {s t : State} (h : Commits i s t) : t.config = s.config := by
  obtain ⟨w, act, c, ha⟩ := h
  rw [(applyAction_keeps _ _ _ _ ha).1, c.keeps.1]

/-- Only PUSH and CALL commit another memory: one byte is written, at the incremented SP. -/
theorem Committed.mem_cases {s w : State} {i : Instr} {act : Action} (c : Committed s i w act) :
    w.mem = s.mem ∨ ((∃ a, i = .push a ∨ i = .call a) ∧ s.sp.toNat + 1 ≤ 255 ∧ w.sp = s.sp + 1#8 ∧
      ∃ v, w.mem = s.mem.write (s.sp.toNat + 1) v) := by
  cases c with
  | push ra h => exact .inr ⟨⟨_, .inl rfl⟩, h, State.readReg_writeReg_same s spIndex _, _, rfl⟩
  | call ra h ret hr => exact .inr ⟨⟨_, .inr rfl⟩, h, State.readReg_writeReg_same s spIndex _, _, rfl⟩
  | _ => exact .inl rfl

theorem Commits.mem_cases {i : Instr} {s t : State} (h : Commits i s t) :
    t.mem = s.mem ∨ ((∃ a, i = .push a ∨ i = .call a) ∧ s.sp.toNat + 1 ≤ 255 ∧ t.sp = s.sp + 1#8 ∧
      ∃ v, t.mem = s.mem.write (s.sp.toNat + 1) v) := by
  obtain ⟨w, act, c, ha⟩ := h
  obtain ⟨-, hregs, -, hmem⟩ := applyAction_keeps _ _ _ _ ha
  have hsp : t.sp = w.sp := by rw [State.sp, State.readReg, hregs]; rfl
  rw [hsp, hmem]
  exact c.mem_cases

/-! ### The invariant -/

theorem compareFlags_exclusive (x y : Byte) : (compareFlags x y).exclusive = true := by
  rcases compareFlags_trichotomy x y with h | h | h <;> rw [h] <;> rfl

theorem Committed.flags_exclusive {s w : State} {i : Instr} {act : Action} (c : Committed s i w act)
    (h : s.flags.exclusive = true) : w.flags.exclusive = true := by
  cases c with
  | cmp ra rb => exact compareFlags_exclusive _ _
  | _ => exact h

theorem Commits.flags_exclusive {i : Instr} {s t : State} (hc : Commits i s t) (h : s.flags.exclusive = true) :
    t.flags.exclusive = true := by
  obtain ⟨w, act, c, ha⟩ := hc
  rw [(applyAction_flags_out _ _ _ _ ha).1]
  exact c.flags_exclusive h

theorem Commits.mem_wf {i : Instr} {s t : State} (hc : Commits i s t) (h : s.mem.wf = true) : t.mem.wf = true := by
  rcases hc.mem_cases with hm | ⟨-, hsp, -, v, hm⟩ <;> rw [hm]
  · exact h
  · exact Memory.wf_write s.mem _ v h (by omega)

/-- The error record that raising leaves. -/
def Raised.record (e : Raised) (s : State) : ErrorRecord where
  kind := e.kind
  pc := s.pc
  opcode := s.mem.read s.pc.toNat
  detail := e.detail

/-- An out-of-range address is outside 0..255, and a bad register byte is 8 to 255. -/
theorem RaisedBy.detailFits {s : State} {i : Instr} {e : Raised} (h : RaisedBy s i e) : (e.record s).detailFits := by
  have hout : ∀ n : Int, n < 0 ∨ 255 < n → ((Raised.memoryOutOfRange n).record s).detailFits := fun _ hn => hn
  cases h with
  | register _ r h8 hr =>
    have hlt := r.isLt
    show (8 : Int) ≤ r.toNat ∧ (r.toNat : Int) ≤ 255
    omega
  | zeroDivisor | popEmpty | retEmpty => trivial
  | pushTop | popBottom | callTop | retBottom => exact hout _ (by decide)
  | callReturn | jeqNot | jneNot | advance => exact hout _ (by omega)

/-- A fresh machine under a legal table meets the invariant. -/
theorem Inv.construct (c : Config) (ok : c.table.ok = true) : Inv (State.construct c) where
  memCanonical := rfl
  tableOk := ok
  flagsExclusive := rfl
  errorHalts := fun h => absurd rfl h
  errorRecord := nofun

/-- An error entry that names the opcode byte at the PC, with a detail that fits its kind, meets the invariant. -/
theorem Inv.takeError {s : State} (h : Inv s) (e : Raised) (hfits : (e.record s).detailFits) :
    Inv (s.takeError (s.mem.read s.pc.toNat) e) where
  memCanonical := h.memCanonical
  tableOk := h.tableOk
  flagsExclusive := h.flagsExclusive
  errorHalts := fun _ => rfl
  errorRecord := by
    intro r hr
    cases hr
    exact ⟨rfl, rfl, hfits⟩

/-- Running holds no error record. -/
theorem Inv.error_eq_none {s : State} (h : Inv s) (hrun : s.status = .running) : s.error = none := by
  by_contra hne
  rw [h.errorHalts hne] at hrun
  cases hrun

/-- A commit from Running keeps the invariant: it writes no record. -/
theorem Inv.of_commits {i : Instr} {s t : State} (h : Inv s) (hrun : s.status = .running) (hc : Commits i s t) :
    Inv t := by
  have herr : t.error = none := hc.error_eq.trans (h.error_eq_none hrun)
  refine ⟨hc.mem_wf h.memCanonical, ?_, hc.flags_exclusive h.flagsExclusive, absurd herr, fun e he => ?_⟩
  · rw [hc.config_eq]
    exact h.tableOk
  · rw [herr] at he
    cases he

theorem Inv.of_step {s t : State} (h : Inv s) (hstep : step s = .next t) : Inv t := by
  have hrun := (step_inv s t hstep).1
  rcases step_cases s t hstep with ⟨i, -, -, hc⟩ | ⟨i, e, -, -, hr, rfl⟩ | ⟨e, hf, rfl⟩
  · exact h.of_commits hrun hc
  · exact h.takeError e hr.detailFits
  · rcases fetch_raised s h.tableOk _ e hf with ⟨rfl, -⟩ | ⟨rfl, -⟩
    · exact h.takeError _ trivial
    · exact h.takeError _ (.inr (by decide))

/-- The invariant makes every budgeted run end in a state, which meets it: by induction on the budget. -/
theorem runFuel_next (k : Nat) (s : State) (h : Inv s) : ∃ t, runFuel k s = .next t ∧ Inv t := by
  induction k generalizing s with
  | zero => exact ⟨s, rfl, h⟩
  | succ k ih =>
    cases hs : s.status with
    | halted => exact ⟨s, runFuel_halted _ s hs, h⟩
    | running =>
      obtain ⟨t, ht⟩ := step_next_of_running s h.tableOk hs
      rw [runFuel_succ k s t ht]
      exact ih t (h.of_step ht)

end Sys2Proof.Machine
end

section
/-! SUPPORT. What a transition reads of memory (`20_memory.md` R34, R48, `40_execution_loop.md` R69 to R71): two states
that differ only in memory, and agree on the fetched bytes and the byte at SP, step alike. -/

namespace Sys2Proof.Machine

open Sys2Proof.Claims

theorem fetchOperands_setMem (s : State) (m : Memory) (op : Byte) (c : Nat) (hc : fetchCount s.config op = c)
    (hle : c ≤ 2) (h : ∀ k : Nat, k ≤ 2 → m.read (s.pc.toNat + k) = s.mem.read (s.pc.toNat + k)) :
    fetchOperands { s with mem := m } op = fetchOperands s op := by
  by_cases hfit : s.pc.toNat + c ≤ 255
  · rw [fetchOperands_ok s op c hc hle hfit, fetchOperands_ok { s with mem := m } op c hc hle hfit]
    refine congrArg _ (List.map_congr_left fun j hj => ?_)
    rw [List.mem_range] at hj
    rw [add_assoc]
    exact h (1 + j) (by omega)
  · rw [fetchOperands_error s op c hc hle (not_le.1 hfit),
      fetchOperands_error { s with mem := m } op c hc hle (not_le.1 hfit)]

theorem fetch_setMem (s : State) (m : Memory) (ok : s.config.table.ok = true)
    (h : ∀ k : Nat, k ≤ 2 → m.read (s.pc.toNat + k) = s.mem.read (s.pc.toNat + k)) :
    fetch { s with mem := m } = fetch s := by
  have hop : m.read s.pc.toNat = s.mem.read s.pc.toNat := h 0 (by omega)
  cases hl : s.config.table.lookup (s.mem.read s.pc.toNat) with
  | none => simp only [fetch, decodeByte, hop, hl]
  | some n =>
    have hcount := (fetchCount_range s.config n ok).2
    rw [s.config.table.lookup_some _ n hl] at hcount
    simp only [fetch, decodeByte, hop, hl, fetchOperands_setMem s m _ _ rfl hcount h]

/-- The checks of an instruction read no byte of memory but the one at SP. -/
theorem firstError_setMem (i : Instr) (s : State) (m : Memory) (h : m.read s.sp.toNat = s.mem.read s.sp.toNat) :
    firstError i { s with mem := m } = firstError i s := by
  have hown : ownError i { s with mem := m } = ownError i s := by
    cases i with
    | pop a =>
      have hsp : { s with mem := m }.sp = s.sp := rfl
      simp only [ownError, hsp, h]
    | _ => rfl
  rw [firstError, firstError, hown]
  rfl

theorem Memory.read_write_congr (m n : Memory) (a x : Nat) (v : Byte) (hm : m.wf = true) (hn : n.wf = true)
    (h : m.read x = n.read x) : (m.write a v).read x = (n.write a v).read x := by
  rw [Memory.read_write m a x v hm, Memory.read_write n a x v hn, h]

/-- A commit on another memory with the same byte at SP: the same copy but for the memory, which differs where the two
did. -/
theorem Committed.setMem {s w : State} {i : Instr} {act : Action} (c : Committed s i w act) (m : Memory)
    (hs : s.mem.wf = true) (hm : m.wf = true) (h : m.read s.sp.toNat = s.mem.read s.sp.toNat) :
    ∃ n : Memory, Committed { s with mem := m } i { w with mem := n } act ∧
      ∀ x : Nat, m.read x = s.mem.read x → n.read x = w.mem.read x := by
  have hwrite : ∀ (v : Byte) (x : Nat), m.read x = s.mem.read x →
      (m.write (s.sp.toNat + 1) v).read x = (s.mem.write (s.sp.toNat + 1) v).read x := fun v x hx =>
    Memory.read_write_congr m s.mem _ x v hm hs hx
  cases c with
  | push ra hsp => exact ⟨_, .push (s := { s with mem := m }) ra hsp, hwrite _⟩
  | call ra hsp ret hr => exact ⟨_, .call (s := { s with mem := m }) ra hsp ret hr, hwrite _⟩
  | pop ra hsp h0 =>
    refine ⟨m, ?_, fun _ hx => hx⟩
    rw [← h] at h0 ⊢
    exact .pop (s := { s with mem := m }) ra hsp h0
  | ret hsp h0 =>
    refine ⟨m, ?_, fun _ hx => hx⟩
    rw [← h]
    exact .ret (s := { s with mem := m }) hsp h0
  | alu op a b ra x v ha hop hx hv =>
    exact ⟨m, .alu (s := { s with mem := m }) op a b ra x v ha hop hx hv, fun _ hx => hx⟩
  | cmp ra rb => exact ⟨m, .cmp (s := { s with mem := m }) ra rb, fun _ hx => hx⟩
  | ldi ra imm => exact ⟨m, .ldi (s := { s with mem := m }) ra imm, fun _ hx => hx⟩
  | prn ra => exact ⟨m, .prn (s := { s with mem := m }) ra, fun _ hx => hx⟩
  | hlt => exact ⟨m, .hlt (s := { s with mem := m }), fun _ hx => hx⟩
  | popEmpty ra hsp hp => exact ⟨m, .popEmpty (s := { s with mem := m }) ra hsp hp, fun _ hx => hx⟩
  | jmp ra => exact ⟨m, .jmp (s := { s with mem := m }) ra, fun _ hx => hx⟩
  | jeqTaken ra he => exact ⟨m, .jeqTaken (s := { s with mem := m }) ra he, fun _ hx => hx⟩
  | jeqNot ra he n hn => exact ⟨m, .jeqNot (s := { s with mem := m }) ra he n hn, fun _ hx => hx⟩
  | jneTaken ra he => exact ⟨m, .jneTaken (s := { s with mem := m }) ra he, fun _ hx => hx⟩
  | jneNot ra he n hn => exact ⟨m, .jneNot (s := { s with mem := m }) ra he n hn, fun _ hx => hx⟩

/-- The PC update neither reads nor writes memory. -/
theorem applyAction_setMem (op : Byte) (w t : State) (act : Action) (n : Memory) (h : applyAction op w act = .ok t) :
    applyAction op { w with mem := n } act = .ok { t with mem := n } := by
  cases act with
  | setPc p =>
    cases h
    rfl
  | halt =>
    cases h
    rfl
  | advance =>
    simp only [applyAction, bind_eq_ok, pure_eq_ok] at h ⊢
    obtain ⟨p, hp, rfl⟩ := h
    exact ⟨p, hp, rfl⟩

theorem exec_setMem (i : Instr) (s t : State) (m : Memory) (ok : s.config.table.ok = true) (hs : s.mem.wf = true)
    (hm : m.wf = true) (h : m.read s.sp.toNat = s.mem.read s.sp.toNat) (hx : exec i s = .next t) :
    ∃ n : Memory, exec i { s with mem := m } = .next { t with mem := n } ∧
      ∀ x : Nat, m.read x = s.mem.read x → n.read x = t.mem.read x := by
  rcases firstError_cases i s ok with ⟨k, d, hfirst, hraise⟩ | ⟨-, u, hc⟩
  · cases hraise.symm.trans hx
    rw [← firstError_setMem i s m h] at hfirst
    rcases firstError_cases i { s with mem := m } ok with ⟨k', d', hfirst', hraise'⟩ | ⟨hnone, -⟩
    · cases hfirst.symm.trans hfirst'
      exact ⟨m, hraise', fun _ hx => hx⟩
    · cases hfirst.symm.trans hnone
  · cases (exec_of_commits hc).symm.trans hx
    obtain ⟨w, act, c, ha⟩ := hc
    obtain ⟨n, c', hn⟩ := c.setMem m hs hm h
    refine ⟨n, exec_of_commits ⟨_, act, c', applyAction_setMem _ w _ act n ha⟩, ?_⟩
    rw [(applyAction_keeps _ _ _ _ ha).2.2.2]
    exact hn

end Sys2Proof.Machine
end

section
/-! The statements about the invariant, the budgeted run and what a step reads. -/

namespace Sys2Proof.Proofs

open Sys2Proof.Machine Sys2Proof.Claims

/-- Settles O13: a commit writes no record, and an error entry writes the one that fits. -/
theorem stepKeepsInvariant : Obligations.StepKeepsInvariant := by
  unfold Obligations.StepKeepsInvariant
  exact fun s t h hstep => h.of_step hstep

/-- Settles O15: the invariant gives a next state in Running, which meets it again. -/
theorem budgetedRunNeverStops : Obligations.BudgetedRunNeverStops := by
  unfold Obligations.BudgetedRunNeverStops
  exact runFuel_next

/-- Settles O23: the fetch reads the three bytes at the PC, and the instruction reads the one at SP. -/
theorem stepReadsOnlyFetchedAndStackBytes : Obligations.StepReadsOnlyFetchedAndStackBytes := by
  unfold Obligations.StepReadsOnlyFetchedAndStackBytes
  intro s t m ok hs hm hfetched hsp hstep
  have hfetch := fetch_setMem s m ok hfetched
  obtain ⟨hrun, ⟨i, hf, -, hx⟩ | ⟨e, hf, rfl⟩⟩ := step_inv s t hstep <;> rw [hf] at hfetch
  · rw [step_of_fetch { s with mem := m } i hrun hfetch]
    exact exec_setMem i s t m ok hs hm hsp hx
  · exact ⟨m, step_of_fetch_raised { s with mem := m } _ e hrun hfetch, fun _ hx => hx⟩

end Sys2Proof.Proofs
end

section
/-! SUPPORT. What one transition can leave: the next PC, the end of Running, and the error record with the condition
that raised it (`10_state.md` R20, `40_execution_loop.md` R74 to R76, `60_exceptions.md` R113 to R118). -/

namespace Sys2Proof.Machine

open Sys2Proof.Claims

/-! ### The opcode byte at the PC -/

theorem getLsbD_four_of_at (s : State) (ok : s.config.table.ok = true) (m : Mnemonic) (h : At s m) :
    (s.mem.read s.pc.toNat).getLsbD 4 = m.setsPc := by
  rw [show s.mem.read s.pc.toNat = _ from h]
  exact (s.config.table.ok_fields ok m).2.2

theorem div_64_of_at (s : State) (ok : s.config.table.ok = true) (m : Mnemonic) (h : At s m) :
    (s.mem.read s.pc.toNat).toNat / 64 = m.operandCount := by
  rw [show s.mem.read s.pc.toNat = _ from h, ← opCount_eq_div]
  exact (s.config.table.ok_fields ok m).1

/-- The byte behind the opcode byte is a fetched instruction's operand byte 1. -/
theorem read_operand_one (s : State) (ok : s.config.table.ok = true) (i : Instr) (a : Byte) (l : List Byte)
    (hf : fetch s = .ok i) (hops : i.operands = a :: l) : s.mem.read (s.pc.toNat + 1) = a := by
  have h := (fetch_operands s ok i hf).2 0 (by simp [hops])
  simpa [hops] using h.symm

theorem read_operand_two (s : State) (ok : s.config.table.ok = true) (i : Instr) (a b : Byte) (l : List Byte)
    (hf : fetch s = .ok i) (hops : i.operands = a :: b :: l) : s.mem.read (s.pc.toNat + 2) = b := by
  have h := (fetch_operands s ok i hf).2 1 (by simp [hops])
  simpa [hops] using h.symm

/-! ### The next PC -/

/-- Where SetPC's target comes from: the operand register, the fall-through, or the byte RET pops. -/
theorem Committed.setPc_source {s w : State} {i : Instr} {n : Byte} (c : Committed s i w (.setPc n)) :
    ((i.mnemonic = .call ∨ i.mnemonic = .jmp ∨ (i.mnemonic = .jeq ∧ s.flags.e = true) ∨
        (i.mnemonic = .jne ∧ s.flags.e = false)) ∧ ∃ ra, i.operands = [regByte ra] ∧ n = w.readReg ra) ∨
      (((i.mnemonic = .jeq ∧ s.flags.e = false) ∨ (i.mnemonic = .jne ∧ s.flags.e = true)) ∧
        n.toNat = s.pc.toNat + 2) ∨
      (i.mnemonic = .ret ∧ n = s.mem.read s.sp.toNat) := by
  cases c with
  | call ra h ret hr => exact .inl ⟨.inl rfl, ra, rfl, rfl⟩
  | jmp ra => exact .inl ⟨.inr (.inl rfl), ra, rfl, rfl⟩
  | jeqTaken ra h => exact .inl ⟨.inr (.inr (.inl ⟨rfl, h⟩)), ra, rfl, rfl⟩
  | jneTaken ra h => exact .inl ⟨.inr (.inr (.inr ⟨rfl, h⟩)), ra, rfl, rfl⟩
  | jeqNot ra h _ hn => exact .inr (.inl ⟨.inl ⟨rfl, h⟩, by omega⟩)
  | jneNot ra h _ hn => exact .inr (.inl ⟨.inr ⟨rfl, h⟩, by omega⟩)
  | ret => exact .inr (.inr ⟨rfl, rfl⟩)

/-- What a commit does to the PC and the status: the advance, the PC set, or HLT. -/
theorem Commits.pc_cases {i : Instr} {s t : State} (h : Commits i s t) (ok : s.config.table.ok = true) :
    (i.mnemonic.setsPc = false ∧ t.status = s.status ∧ t.pc.toNat = s.pc.toNat + i.mnemonic.operandCount + 1) ∨
    (i.mnemonic.setsPc = true ∧ ∃ w n, Committed s i w (.setPc n) ∧ t = { w with pc := n }) ∨
    (i = .hlt ∧ t = { s with status := .halted }) := by
  obtain ⟨w, act, c, ha⟩ := h
  obtain ⟨-, hpc, hstatus, -⟩ := c.keeps
  have hlen := (s.config.table.ok_fields ok i.mnemonic).1
  rcases c.action with ⟨rfl, hset, -⟩ | ⟨⟨n, rfl⟩, hset⟩ | ⟨rfl, hhlt, rfl⟩
  · rcases applyAction_eq_ok _ _ _ _ ha with ⟨-, n, hn, rfl⟩ | ⟨-, ⟨⟩, -⟩ | ⟨⟨⟩, -⟩
    rw [hpc, hlen] at hn
    exact .inl ⟨hset, hstatus, Int.ofNat_inj.1 hn⟩
  · cases ha
    exact .inr (.inl ⟨hset, w, n, c, rfl⟩)
  · cases ha
    exact .inr (.inr ⟨hhlt, rfl⟩)

/-! ### The error record -/

/-- A transition that writes an error record makes the error entry of the instruction or of the fetch. -/
theorem step_error_cases (s t : State) (r : ErrorRecord) (hnone : s.error = none) (h : step s = .next t)
    (hr : t.error = some r) :
    ∃ e, t = s.takeError (s.mem.read s.pc.toNat) e ∧ r = e.record s ∧
      ((∃ i, fetch s = .ok i ∧ At s i.mnemonic ∧ RaisedBy s i e) ∨
        fetch s = .error (.raised (s.mem.read s.pc.toNat) e)) := by
  rcases step_cases s t h with ⟨i, -, -, hc⟩ | ⟨i, e, hf, hat, hx, rfl⟩ | ⟨e, hf, rfl⟩
  · rw [hc.error_eq, hnone] at hr
    cases hr
  · cases hr
    exact ⟨e, rfl, rfl, .inl ⟨i, hf, hat, hx⟩⟩
  · cases hr
    exact ⟨e, rfl, rfl, .inr hf⟩

/-- The address an instruction's error records, when its bytes lie in memory. -/
theorem RaisedBy.address {s : State} {i : Instr} {n : Int} (h : RaisedBy s i (.memoryOutOfRange n))
    (ok : s.config.table.ok = true) (hfit : s.pc.toNat + i.operands.length ≤ 255) : n = 256 ∨ n = -1 := by
  cases h with
  | pushTop | callTop => exact .inl rfl
  | popBottom | retBottom => exact .inr rfl
  | callReturn | jeqNot | jneNot =>
    simp only [Instr.operands, List.length_cons, List.length_nil] at hfit
    omega
  | advance =>
    rw [opCount_byteOf_mnemonic _ ok] at *
    omega

/-- Which computation left memory, for an address an instruction raised. -/
theorem RaisedBy.addressLeavesMemory {s : State} {i : Instr} {n : Int} (h : RaisedBy s i (.memoryOutOfRange n))
    (ok : s.config.table.ok = true) (hf : fetch s = .ok i) (hat : At s i.mnemonic) : AddressLeavesMemory s n := by
  cases h with
  | advance _ w c htop =>
    have hcount := (s.config.table.ok_fields ok i.mnemonic).1
    rw [hcount] at htop ⊢
    rcases c.action with ⟨-, hset, hhlt⟩ | ⟨⟨-, ⟨⟩⟩, -⟩ | ⟨⟨⟩, -⟩
    refine .inr (.inl ⟨_, hat, hset, fun hm => hhlt ?_, htop, rfl⟩)
    exact i.eq_of_operands .hlt hm (List.eq_nil_of_length_eq_zero (by rw [i.operands_length, hm]; rfl))
  | pushTop ra h => exact .inr (.inr (.inl ⟨.inl hat, BitVec.eq_of_toNat_eq h, rfl⟩))
  | callTop ra hp h => exact .inr (.inr (.inl ⟨.inr hat, BitVec.eq_of_toNat_eq h, rfl⟩))
  | callReturn ra h => exact .inr (.inr (.inr (.inl ⟨.inl hat, h, rfl⟩)))
  | jeqNot ra he h => exact .inr (.inr (.inr (.inl ⟨.inr (.inl ⟨hat, he⟩), h, rfl⟩)))
  | jneNot ra he h => exact .inr (.inr (.inr (.inl ⟨.inr (.inr ⟨hat, he⟩), h, rfl⟩)))
  | retBottom hs h0 => exact .inr (.inr (.inr (.inr (.inl ⟨hat, BitVec.eq_of_toNat_eq h0, rfl⟩))))
  | popBottom ra hs h0 =>
    refine .inr (.inr (.inr (.inr (.inr ⟨hat, hs, rfl, ?_⟩))))
    have hseven : (regByte ra).toNat = 7 ↔ regByte ra = 7#8 := BitVec.toNat_inj (y := 7#8)
    rw [writeReg_sp_toNat] at h0
    simp only [hseven] at h0
    rw [read_operand_one s ok _ (regByte ra) [] hf rfl]
    by_cases hra : regByte ra = 7#8
    · rw [if_pos hra] at h0 ⊢
      exact BitVec.eq_of_toNat_eq h0
    · rw [if_neg hra] at h0 ⊢
      exact BitVec.eq_of_toNat_eq h0

/-- ArithmeticDomain is raised for a zero divisor of DIV or MOD only. -/
theorem RaisedBy.arithmeticDomain_source {s : State} {i : Instr} (h : RaisedBy s i .arithmeticDomain) :
    (i.mnemonic = .div ∨ i.mnemonic = .mod) ∧
      ∃ ra rb, i.operands = [regByte ra, regByte rb] ∧ (s.readReg rb).toNat = 0 := by
  cases h with
  | zeroDivisor op ra rb hop hz =>
    rcases hop with rfl | rfl
    · exact ⟨.inl rfl, ra, rb, rfl, hz⟩
    · exact ⟨.inr rfl, ra, rb, rfl, hz⟩

/-- StackUnderflow is raised at the sentinel only, by RET, or by POP under Fatal. -/
theorem RaisedBy.stackUnderflow_source {s : State} {i : Instr} (h : RaisedBy s i .stackUnderflow) :
    s.sp = 0xF4#8 ∧ (i.mnemonic = .ret ∨ (i.mnemonic = .pop ∧ s.config.underflowPolicy = .fatal)) := by
  cases h with
  | popEmpty ra hs hp => exact ⟨hs, .inr ⟨rfl, hp⟩⟩
  | retEmpty hs => exact ⟨hs, .inl rfl⟩

theorem RaisedBy.registerOutOfRange_source {s : State} {i : Instr} {r : Byte}
    (h : RaisedBy s i (.registerOutOfRange r)) : r ∈ i.registerOperands ∧ 8 ≤ r.toNat := by
  cases h with
  | register _ _ h8 hr => exact ⟨hr, h8⟩

theorem RaisedBy.ne_unsupportedOpcode {s : State} {i : Instr} (h : RaisedBy s i .unsupportedOpcode) : False := by
  cases h

theorem Raised.eq_memoryOutOfRange (e : Raised) (h : e.kind = .memoryOutOfRange) : ∃ n, e = .memoryOutOfRange n := by
  cases e with
  | memoryOutOfRange n => exact ⟨n, rfl⟩
  | _ => cases h

/-- A longer budget leaves an ended run as it is. -/
theorem runFuel_add (j k : Nat) (s t : State) (h : runFuel k s = .next t) (hend : t.status = .halted) :
    runFuel (k + j) s = .next t := by
  induction k generalizing s with
  | zero =>
    cases h
    exact runFuel_halted _ _ hend
  | succ k ih =>
    cases hs : s.status with
    | halted =>
      rw [runFuel_halted _ s hs] at h ⊢
      exact h
    | running =>
      simp only [runFuel, hs] at h
      rw [show k + 1 + j = k + j + 1 by omega]
      cases hu : step s with
      | next u =>
        rw [hu] at h
        rw [runFuel_succ _ s u hu]
        exact ih u h
      | fault r => rw [hu] at h; cases h
      | refused r => rw [hu] at h; cases h

end Sys2Proof.Machine
end

section
/-! The statements about the transition and the whole machine. -/

namespace Sys2Proof.Proofs

open Sys2Proof.Machine Sys2Proof.Claims

/-- Settles O8: the fetch gives what the bytes at the PC decode to, and Running executes it. -/
theorem stepRunsDecodedInstruction : Obligations.StepRunsDecodedInstruction := by
  unfold Obligations.StepRunsDecodedInstruction
  intro s i rest hrun ok hd htwo
  exact step_of_fetch s i hrun (fetch_of_decode s ok i rest hd htwo)

/-- Settles O10: the fetch of the operand bytes fails, and Running makes its error entry. -/
theorem operandFetchPastMemoryRaises : Obligations.OperandFetchPastMemoryRaises := by
  unfold Obligations.OperandFetchPastMemoryRaises
  intro s m hrun ok hat htop
  exact step_of_fetch_raised s _ _ hrun (fetch_of_past_memory s ok m hat htop)

/-- Settles O11: Running has a transition, by progress, and only it has one, by inversion. -/
theorem transitionsExistOnlyFromRunning : Obligations.TransitionsExistOnlyFromRunning := by
  unfold Obligations.TransitionsExistOnlyFromRunning
  intro s ok
  refine ⟨⟨step_next_of_running s ok, fun ⟨t, ht⟩ => (step_inv s t ht).1⟩, step_of_halted s, fun t ht => ?_⟩
  obtain ⟨-, ⟨i, hf, hb, hx⟩ | ⟨e, hf, rfl⟩⟩ := step_inv s t ht
  · exact .inl ⟨i, hf, hb.symm, hx⟩
  · exact .inr ⟨e, hf, State.takeError_eq_errorEntry s _ e⟩

/-- Settles O12: every instruction is a transition, which commits or makes an error entry. -/
theorem everyInstructionAnswersNext : Obligations.EveryInstructionAnswersNext := by
  unfold Obligations.EveryInstructionAnswersNext
  exact exec_next

/-- Settles O14: a fresh machine under the default table, which meets R61. -/
theorem resetMeetsInvariant : Obligations.ResetMeetsInvariant := by
  unfold Obligations.ResetMeetsInvariant
  exact Inv.construct Config.default (by decide)

/-- Settles O16, by induction on the smaller budget. -/
theorem endedRunStaysAsItIs : Obligations.EndedRunStaysAsItIs := by
  unfold Obligations.EndedRunStaysAsItIs
  exact runFuel_add

/-- Settles O17: a commit writes no record, so the transition is an error entry. -/
theorem errorEntryCommitsNothingElse : Obligations.ErrorEntryCommitsNothingElse := by
  unfold Obligations.ErrorEntryCommitsNothingElse
  intro s t hnone h hne
  obtain ⟨r, hr⟩ := Option.ne_none_iff_exists'.1 hne
  obtain ⟨e, rfl, -⟩ := step_error_cases s t r hnone h hr
  exact ⟨e.kind, e.detail, State.takeError_eq_errorEntry s _ e⟩

/-- Settles O18: a record stands only in Halted, where no transition exists. -/
theorem errorIsWrittenAtMostOnce : Obligations.ErrorIsWrittenAtMostOnce := by
  unfold Obligations.ErrorIsWrittenAtMostOnce
  intro s h
  exact ⟨fun hne => step_of_halted s (h.errorHalts hne), fun t ht => h.error_eq_none (step_inv s t ht).1⟩

/-- Settles O22: only PUSH and CALL commit another memory, by one write at the incremented SP. -/
theorem onlyPushAndCallStoreOneByte : Obligations.OnlyPushAndCallStoreOneByte := by
  unfold Obligations.OnlyPushAndCallStoreOneByte
  intro s t hwf h
  rcases step_cases s t h with ⟨i, -, hat, hc⟩ | ⟨i, e, -, -, -, rfl⟩ | ⟨e, -, rfl⟩
  · rcases hc.mem_cases with hm | ⟨hi, hsp, hspt, v, hm⟩
    · exact .inl fun x => by rw [hm]
    · refine .inr ⟨?_, hsp, ?_, fun x hx => ?_⟩
      · obtain ⟨a, rfl | rfl⟩ := hi
        · exact .inl hat
        · exact .inr hat
      · rw [hspt, BitVec.toNat_add]
        exact Nat.mod_eq_of_lt (Nat.lt_succ_of_le hsp)
      · rw [hm, Memory.read_write_other s.mem _ x v hwf hx.symm]
  · exact .inl fun _ => rfl
  · exact .inl fun _ => rfl

/-- Settles O24: neither a commit nor an error entry writes the configuration. -/
theorem configurationNeverChanges : Obligations.ConfigurationNeverChanges := by
  unfold Obligations.ConfigurationNeverChanges
  intro s t h
  rcases step_cases s t h with ⟨i, -, -, hc⟩ | ⟨i, e, -, -, -, rfl⟩ | ⟨e, -, rfl⟩
  · exact hc.config_eq
  · rfl
  · rfl

/-- Settles O25: a commit that halts is HLT's, for every other one keeps the status Running. -/
theorem onlyHltOrAnErrorHalts : Obligations.OnlyHltOrAnErrorHalts := by
  unfold Obligations.OnlyHltOrAnErrorHalts
  intro s t hnone h hhalt
  have hrun := (step_inv s t h).1
  rcases step_cases s t h with ⟨i, -, hat, w, act, c, ha⟩ | ⟨i, e, -, -, -, rfl⟩ | ⟨e, -, rfl⟩
  · left
    have hkeep : w.status ≠ .halted := by
      rw [c.keeps.2.2.1, hrun]
      nofun
    rcases applyAction_eq_ok _ _ _ _ ha with ⟨-, n, -, rfl⟩ | ⟨n, -, rfl⟩ | ⟨rfl, rfl⟩
    · exact absurd hhalt hkeep
    · exact absurd hhalt hkeep
    · rcases c.action with ⟨⟨⟩, -⟩ | ⟨⟨-, ⟨⟩⟩, -⟩ | ⟨-, rfl, rfl⟩
      exact ⟨hat, rfl⟩
  · exact .inr nofun
  · exact .inr nofun

/-- Settles O26: the count bits are the operand count of R61, and only an advance leaves Running with bit 4 clear. -/
theorem pcAdvancesByOperandCountPlusOne : Obligations.PcAdvancesByOperandCountPlusOne := by
  unfold Obligations.PcAdvancesByOperandCountPlusOne
  refine ⟨fun t op => opCount_eq_div op, fun t op ok => t.lookup_of_opCount_three ok op,
    fun t op m ok => t.opCount_of_lookup ok op m, fun s t ok h hrun hbit => ?_⟩
  rcases step_cases s t h with ⟨i, -, hat, hc⟩ | ⟨i, e, -, -, -, rfl⟩ | ⟨e, -, rfl⟩
  · rw [getLsbD_four_of_at s ok _ hat] at hbit
    rw [div_64_of_at s ok _ hat]
    rcases hc.pc_cases ok with ⟨-, -, hpc⟩ | ⟨hset, -⟩ | ⟨-, rfl⟩
    · exact hpc
    · rw [hbit] at hset
      cases hset
    · cases hrun
  · cases hrun
  · cases hrun

/-- Settles O27: the PC is advanced, set from one of SetPC's sources, or kept by HLT and by an error entry. -/
theorem nextPcComesFromListedSources : Obligations.NextPcComesFromListedSources := by
  unfold Obligations.NextPcComesFromListedSources
  intro s t ok h
  have hrun := (step_inv s t h).1
  rcases step_cases s t h with ⟨i, hf, hat, hc⟩ | ⟨i, e, -, -, -, rfl⟩ | ⟨e, -, rfl⟩
  · rcases hc.pc_cases ok with ⟨hset, hstatus, hpc⟩ | ⟨hset, w, n, c, rfl⟩ | ⟨-, rfl⟩
    · rw [getLsbD_four_of_at s ok _ hat, div_64_of_at s ok _ hat]
      exact .inl ⟨hstatus.trans hrun, hpc, hset⟩
    · rcases c.setPc_source with ⟨hm, ra, hops, hn⟩ | ⟨hm, hn⟩ | ⟨hm, hn⟩
      · refine .inr (.inl ⟨?_, ra, read_operand_one s ok i _ [] hf hops, hn⟩)
        rcases hm with hm | hm | ⟨hm, he⟩ | ⟨hm, he⟩ <;> rw [hm] at hat
        · exact .inl hat
        · exact .inr (.inl hat)
        · exact .inr (.inr (.inl ⟨hat, he⟩))
        · exact .inr (.inr (.inr ⟨hat, he⟩))
      · refine .inr (.inr (.inl ⟨?_, hn⟩))
        rcases hm with ⟨hm, he⟩ | ⟨hm, he⟩ <;> rw [hm] at hat
        · exact .inl ⟨hat, he⟩
        · exact .inr ⟨hat, he⟩
      · rw [hm] at hat
        exact .inr (.inr (.inr (.inl ⟨hat, hn⟩)))
    · exact .inr (.inr (.inr (.inr ⟨rfl, rfl⟩)))
  · exact .inr (.inr (.inr (.inr ⟨rfl, rfl⟩)))
  · exact .inr (.inr (.inr (.inr ⟨rfl, rfl⟩)))

/-- Settles O28: an instruction whose bytes lie in memory computes 256 at most, and a failed fetch 256. -/
theorem outOfRangeAddressIs256OrMinusOne : Obligations.OutOfRangeAddressIs256OrMinusOne := by
  unfold Obligations.OutOfRangeAddressIs256OrMinusOne
  intro s t r ok hnone h hr hkind
  obtain ⟨e, -, rfl, hsrc⟩ := step_error_cases s t r hnone h hr
  obtain ⟨n, rfl⟩ := e.eq_memoryOutOfRange hkind
  rcases hsrc with ⟨i, hf, -, hx⟩ | hf
  · rcases hx.address ok (fetch_operands s ok i hf).1 with rfl | rfl
    · exact .inl rfl
    · exact .inr rfl
  · rcases fetch_raised s ok _ _ hf with ⟨⟨⟩, -⟩ | ⟨⟨⟩, -⟩
    exact .inl rfl

/-- Settles O29: each kind is traced to the instruction or the fetch that raised it. -/
theorem errorKindsComeFromTheirInstructions : Obligations.ErrorKindsComeFromTheirInstructions := by
  unfold Obligations.ErrorKindsComeFromTheirInstructions
  intro s t r ok hnone h hr
  obtain ⟨e, -, rfl, hsrc⟩ := step_error_cases s t r hnone h hr
  rcases hsrc with ⟨i, hf, hat, hx⟩ | hf
  · cases e with
    | unsupportedOpcode => exact hx.ne_unsupportedOpcode.elim
    | arithmeticDomain =>
      obtain ⟨hm, ra, rb, hops, hz⟩ := hx.arithmeticDomain_source
      refine ⟨rfl, ?_, ra, rb, read_operand_one s ok i _ _ hf hops, read_operand_two s ok i _ _ _ hf hops, hz⟩
      rcases hm with hm | hm <;> rw [hm] at hat
      · exact .inl hat
      · exact .inr hat
    | stackUnderflow =>
      obtain ⟨hs, hm⟩ := hx.stackUnderflow_source
      refine ⟨rfl, hs, ?_⟩
      rcases hm with hm | ⟨hm, hp⟩ <;> rw [hm] at hat
      · exact .inl hat
      · exact .inr ⟨hat, hp⟩
    | memoryOutOfRange n => exact ⟨n, rfl, hx.detailFits, hx.addressLeavesMemory ok hf hat⟩
    | registerOutOfRange q =>
      obtain ⟨hq, h8⟩ := hx.registerOutOfRange_source
      obtain ⟨rest, hd⟩ := decode_bytesAt_of_fetch s ok i hf
      exact ⟨q, i, rest, hd, hq, h8, rfl⟩
  · rcases fetch_raised s ok _ _ hf with ⟨rfl, hout⟩ | ⟨rfl, m, hat, htop⟩
    · exact ⟨rfl, hout⟩
    · exact ⟨256, rfl, .inr (by decide), .inl ⟨m, hat, htop, rfl⟩⟩

/-- Settles O30: the checks in the order of R120, the advance last. -/
theorem firstFailingCheckIsRaised : Obligations.FirstFailingCheckIsRaised := by
  unfold Obligations.FirstFailingCheckIsRaised
  intro i s ok
  rcases firstError_cases i s ok with ⟨k, d, hfirst, hraise⟩ | ⟨hfirst, t, hc⟩ <;> rw [hfirst]
  · exact hraise
  · exact ⟨t, exec_of_commits hc, hc.error_eq⟩

/-- Settles O31: bytes below 8 are the register names, and the check of the others is each instruction's beginning. -/
theorem registerOperandByteIsTheIndex : Obligations.RegisterOperandByteIsTheIndex := by
  unfold Obligations.RegisterOperandByteIsTheIndex
  refine ⟨fun r => ⟨resolve_regByte r, regByte_toNat r⟩, exists_eq_regByte, raises_registerOutOfRange,
    fun t m bytes ok hlen => ?_⟩
  obtain ⟨i, rest, hd, -⟩ := decode_byteOf t ok m bytes hlen
  exact ⟨i, rest, hd⟩

end Sys2Proof.Proofs
end

section
/-! SUPPORT. What each instruction leaves, and what it does not touch (`41_alu.md`, `42_load_print_halt.md`,
`43_stack.md`, `44_control_transfer.md`). -/

namespace Sys2Proof.Machine

open Sys2Proof.Claims

/-! ### Results of the ALU -/

theorem reduce_toNat (r : Int) : ((reduce r).toNat : Int) = r % 256 := by
  rw [reduce, BitVec.toNat_ofInt]
  omega

theorem toNat_emod_256 (v : Byte) : (v.toNat : Int) = (v.toNat : Int) % 256 := by
  have := v.isLt
  omega

theorem toNat_of_emod (v : Byte) (n : Nat) (hn : n < 256) (h : (v.toNat : Int) = n % 256) : v.toNat = n := by
  omega

/-- The ALU writes the integer result mod 256 (R83). -/
theorem aluApply_of_naturalResult (op : AluOp) (x y : Byte) (r : Int)
    (h : naturalResult op x.toNat y.toNat = some r) :
    ∃ v : Byte, aluApply op x y = .write v ∧ (v.toNat : Int) = r % 256 := by
  cases op with
  | add | sub | mul | not | inc | dec =>
    cases h
    exact ⟨_, rfl, reduce_toNat _⟩
  | shl | shr =>
    cases h
    exact ⟨_, rfl, (reduce_toNat _).trans (by push_cast; rfl)⟩
  | div =>
    obtain ⟨hy, rfl⟩ : ¬ y.toNat = 0 ∧ (x.toNat / y.toNat : Int) = r := by simpa [naturalResult] using h
    exact ⟨_, if_neg hy, (reduce_toNat _).trans (by push_cast; rfl)⟩
  | mod =>
    obtain ⟨hy, rfl⟩ : ¬ y.toNat = 0 ∧ (x.toNat % y.toNat : Int) = r := by simpa [naturalResult] using h
    exact ⟨_, if_neg hy, (reduce_toNat _).trans (by rw [Int.emod_def (x.toNat : Int), mul_comm]; push_cast; rfl)⟩
  | and =>
    cases h
    exact ⟨_, rfl, by rw [← BitVec.toNat_and]; exact toNat_emod_256 _⟩
  | or =>
    cases h
    exact ⟨_, rfl, by rw [← BitVec.toNat_or]; exact toNat_emod_256 _⟩
  | xor =>
    cases h
    exact ⟨_, rfl, by rw [← BitVec.toNat_xor]; exact toNat_emod_256 _⟩
  | cmp => cases h

theorem aluLength_eq (op : AluOp) : op.mnemonic.operandCount + 1 = aluLength op := by
  cases op <;> rfl

/-- An ALU operation that writes, below the top of memory. -/
theorem exec_alu_write (op : AluOp) (ra rb : Fin 8) (s : State) (v : Byte) (ok : s.config.table.ok = true)
    (hpc : s.pc.toNat + aluLength op ≤ 255) (hv : aluApply op (s.readReg ra) (s.readReg rb) = .write v) :
    exec (op.instr (regByte ra) (regByte rb)) s =
      .next { s.writeReg ra v with pc := s.pc + BitVec.ofNat 8 (aluLength op) } := by
  have hop : op ≠ .cmp := by
    rintro rfl
    cases hv
  refine exec_of_committed_advance (.alu op _ _ ra _ v rfl hop (.inl ⟨rb, rfl, rfl⟩) hv) _ ok ?_ hpc
  rw [AluOp.instr_mnemonic, aluLength_eq]

theorem exec_alu_naturalResult (op : AluOp) (ra rb : Fin 8) (s : State) (r : Int) (ok : s.config.table.ok = true)
    (hpc : s.pc.toNat + aluLength op ≤ 255) (hr : naturalResult op (s.readReg ra).toNat (s.readReg rb).toNat = some r) :
    ∃ v : Byte, (v.toNat : Int) = r % 256 ∧ exec (op.instr (regByte ra) (regByte rb)) s =
      .next { s.writeReg ra v with pc := s.pc + BitVec.ofNat 8 (aluLength op) } := by
  obtain ⟨v, hv, hvr⟩ := aluApply_of_naturalResult op _ _ r hr
  exact ⟨v, hvr, exec_alu_write op ra rb s v ok hpc hv⟩

/-- A result that is a multiple of 256 is stored as 0. -/
theorem exec_alu_zero (op : AluOp) (ra rb : Fin 8) (s : State) (r : Int) (ok : s.config.table.ok = true)
    (hpc : s.pc.toNat + aluLength op ≤ 255) (hr : naturalResult op (s.readReg ra).toNat (s.readReg rb).toNat = some r)
    (hzero : r % 256 = 0) :
    exec (op.instr (regByte ra) (regByte rb)) s =
      .next { s.writeReg ra 0#8 with pc := s.pc + BitVec.ofNat 8 (aluLength op) } := by
  obtain ⟨v, hv, hx⟩ := exec_alu_naturalResult op ra rb s r ok hpc hr
  obtain rfl : v = 0#8 := BitVec.eq_of_toNat_eq (Int.ofNat_inj.1 (hv.trans hzero))
  exact hx

/-! ### The registers and the memory an instruction can write -/

/-- The registers an instruction can write: its destination operand, and SP of the stack instructions. -/
def mayWrite (i : Instr) (q : Fin 8) : Prop :=
  match i with
  | .add a _ | .sub a _ | .mul a _ | .div a _ | .mod a _ | .and a _ | .or a _ | .xor a _ => regByte q = a
  | .not a | .shl a _ | .shr a _ | .inc a | .dec a | .ldi a _ => regByte q = a
  | .push _ | .call _ | .ret => q = spIndex
  | .pop a => q = spIndex ∨ regByte q = a
  | .cmp _ _ | .prn _ | .hlt | .jmp _ | .jeq _ | .jne _ => False

theorem mayWrite_alu (op : AluOp) (a b : Byte) (q : Fin 8) :
    mayWrite (op.instr a b) q ↔ op ≠ .cmp ∧ regByte q = a := by
  cases op <;> simp [mayWrite, AluOp.instr]

theorem Committed.readReg_eq {s w : State} {i : Instr} {act : Action} (c : Committed s i w act) (q : Fin 8)
    (hq : ¬ mayWrite i q) : w.readReg q = s.readReg q := by
  have hne : ∀ ra : Fin 8, regByte q ≠ regByte ra → ra ≠ q := fun ra h e => h (by rw [e])
  cases c with
  | alu op a b ra x v ha hop hx hv =>
    refine State.readReg_writeReg_other s ra q v (hne ra fun h => hq ?_)
    rw [ha]
    exact (mayWrite_alu op _ b q).2 ⟨hop, h⟩
  | ldi ra imm => exact State.readReg_writeReg_other s ra q imm (hne ra hq)
  | push | call | ret => exact State.readReg_writeReg_other s spIndex q _ (Ne.symm hq)
  | pop ra h h0 =>
    obtain ⟨hsp, hra⟩ := not_or.1 hq
    rw [State.readReg_writeReg_other _ spIndex q _ (Ne.symm hsp), State.readReg_writeReg_other s ra q _ (hne ra hra)]
  | _ => rfl

theorem applyAction_readReg (op : Byte) (w t : State) (act : Action) (h : applyAction op w act = .ok t) (q : Fin 8) :
    t.readReg q = w.readReg q := by
  rw [State.readReg, State.readReg, (applyAction_keeps op w t act h).2.1]

theorem exec_readReg_eq (i : Instr) (s t : State) (h : exec i s = .next t) (q : Fin 8) (hq : ¬ mayWrite i q) :
    t.readReg q = s.readReg q := by
  rcases exec_cases i s t h with ⟨w, act, c, ha⟩ | ⟨e, -, rfl⟩
  · rw [applyAction_readReg _ _ _ _ ha, c.readReg_eq q hq]
  · rfl

theorem exec_config_eq (i : Instr) (s t : State) (h : exec i s = .next t) : t.config = s.config := by
  rcases exec_cases i s t h with hc | ⟨e, -, rfl⟩
  · exact Commits.config_eq hc
  · rfl

/-- An instruction but HLT keeps the status and the record, or raises. -/
theorem exec_keepsStatusOrRaises (i : Instr) (s t : State) (h : exec i s = .next t) (hi : i ≠ .hlt) :
    KeepsStatusOrRaises i s t := by
  rcases exec_cases i s t h with ⟨w, act, c, ha⟩ | ⟨e, -, rfl⟩
  · obtain ⟨-, -, hstatus, herr⟩ := c.keeps
    rw [KeepsStatusOrRaises, ← hstatus, ← herr]
    rcases applyAction_eq_ok _ _ _ _ ha with ⟨-, n, -, rfl⟩ | ⟨n, -, rfl⟩ | ⟨rfl, -⟩
    · exact .inl ⟨rfl, rfl⟩
    · exact .inl ⟨rfl, rfl⟩
    · rcases c.action with ⟨⟨⟩, -⟩ | ⟨⟨-, ⟨⟩⟩, -⟩ | ⟨-, hhlt, -⟩
      exact absurd hhlt hi
  · exact .inr ⟨e.kind, e.detail, State.takeError_eq_errorEntry s _ e⟩

/-- An instruction stores at the incremented SP, when it is PUSH or CALL, or nowhere. -/
theorem exec_mem_cases (i : Instr) (s t : State) (h : exec i s = .next t) :
    t.mem = s.mem ∨ ((∃ a, i = .push a ∨ i = .call a) ∧ s.sp.toNat + 1 ≤ 255 ∧
      ∃ v, t.mem = s.mem.write (s.sp.toNat + 1) v) := by
  rcases exec_cases i s t h with hc | ⟨e, -, rfl⟩
  · exact (Commits.mem_cases hc).imp_right fun ⟨hi, hsp, _, hv⟩ => ⟨hi, hsp, hv⟩
  · exact .inl rfl

theorem exec_sameMemory (i : Instr) (s t : State) (h : exec i s = .next t) (hpush : i.mnemonic ≠ .push)
    (hcall : i.mnemonic ≠ .call) : SameMemory s t := by
  rcases exec_mem_cases i s t h with hm | ⟨⟨a, rfl | rfl⟩, -⟩
  · exact fun x => by rw [hm]
  · exact absurd rfl hpush
  · exact absurd rfl hcall

theorem exec_flags_eq (i : Instr) (s t : State) (h : exec i s = .next t) (hi : i.mnemonic ≠ .cmp) :
    t.flags = s.flags := by
  refine (exec_flags_eq_or_cmp i s t h).resolve_right ?_
  rintro ⟨a, b, rfl⟩
  exact hi rfl

theorem exec_out_eq (i : Instr) (s t : State) (h : exec i s = .next t) (hi : i.mnemonic ≠ .prn) : t.out = s.out :=
  (exec_out_eq_or_prn i s t h).resolve_right fun ⟨hm, _⟩ => hi hm

/-- Only PRN commits another output: its register's value is appended. -/
theorem Committed.out_cases {s w : State} {i : Instr} {act : Action} (c : Committed s i w act) :
    w.out = s.out ∨ ∃ ra, i = .prn (regByte ra) ∧ w.out = s.out ++ [w.readReg ra] := by
  cases c with
  | prn ra => exact .inr ⟨ra, rfl, rfl⟩
  | _ => exact .inl rfl

theorem exec_prn_out (a : Byte) (s t : State) (h : exec (.prn a) s = .next t) :
    t.out = s.out ∨ t.out = s.out ++ [t.readReg (Fin.ofNat 8 a.toNat)] := by
  rcases exec_cases _ s t h with ⟨w, act, c, ha⟩ | ⟨e, -, rfl⟩
  · rw [(applyAction_flags_out _ _ _ _ ha).2, applyAction_readReg _ _ _ _ ha]
    refine c.out_cases.imp_right ?_
    rintro ⟨ra, hi, hout⟩
    cases hi
    rw [regByte_toNat, hout]
    simp
  · exact .inl rfl

/-! ### The stack instructions -/

/-- The value of a register after SP is written. -/
theorem readReg_writeReg_sp (s : State) (ra : Fin 8) (v : Byte) :
    (s.writeReg spIndex v).readReg ra = if ra = spIndex then v else s.readReg ra := by
  rw [State.readReg_writeReg, if_congr eq_comm rfl rfl]

theorem writeReg_sp_of_ne (s : State) (ra : Fin 8) (v : Byte) (h : ra ≠ spIndex) : (s.writeReg ra v).sp = s.sp :=
  State.readReg_writeReg_other s ra spIndex v h

@[simp] theorem writeReg_spIndex_sp (s : State) (v : Byte) : (s.writeReg spIndex v).sp = v :=
  State.readReg_writeReg_same s spIndex v

theorem writeReg_writeReg_same (s : State) (r : Fin 8) (v u : Byte) :
    (s.writeReg r v).writeReg r u = s.writeReg r u := by
  simp [State.writeReg]

theorem exec_push_regByte (ra : Fin 8) (s : State) (ok : s.config.table.ok = true) (hpc : s.pc.toNat + 2 ≤ 255)
    (hsp : s.sp.toNat + 1 ≤ 255) :
    exec (.push (regByte ra)) s =
      .next { s.writeReg spIndex (s.sp + 1#8) with
        mem := s.mem.write (s.sp.toNat + 1) (if ra = spIndex then s.sp + 1#8 else s.readReg ra)
        pc := s.pc + 2#8 } := by
  rw [← readReg_writeReg_sp]
  exact exec_of_committed_advance (.push ra hsp) 2 ok rfl hpc

theorem exec_pop_regByte (ra : Fin 8) (s : State) (ok : s.config.table.ok = true) (hpc : s.pc.toNat + 2 ≤ 255)
    (hs : s.sp ≠ sentinel) (hra : ra ≠ spIndex) (h0 : 0 < s.sp.toNat) :
    exec (.pop (regByte ra)) s =
      .next { (s.writeReg ra (s.mem.read s.sp.toNat)).writeReg spIndex (s.sp - 1#8) with pc := s.pc + 2#8 } := by
  have hsp := writeReg_sp_of_ne s ra (s.mem.read s.sp.toNat) hra
  have hx := exec_of_committed_advance (.pop ra hs (by rw [hsp]; exact h0)) 2 ok rfl hpc
  rw [hsp] at hx
  exact hx

theorem exec_pop_sp (s : State) (ok : s.config.table.ok = true) (hpc : s.pc.toNat + 2 ≤ 255) (hs : s.sp ≠ sentinel)
    (h0 : 0 < (s.mem.read s.sp.toNat).toNat) :
    exec (.pop (regByte spIndex)) s =
      .next { s.writeReg spIndex (s.mem.read s.sp.toNat - 1#8) with pc := s.pc + 2#8 } := by
  have hsp := writeReg_spIndex_sp s (s.mem.read s.sp.toNat)
  have hx := exec_of_committed_advance (.pop spIndex hs (by rw [hsp]; exact h0)) 2 ok rfl hpc
  rw [hsp, writeReg_writeReg_same] at hx
  exact hx

theorem add_toNat (v : Byte) (n : Nat) (h : v.toNat + n ≤ 255) : (v + BitVec.ofNat 8 n).toNat = v.toNat + n := by
  rw [BitVec.toNat_add, BitVec.toNat_ofNat]
  omega

theorem exec_call_regByte (ra : Fin 8) (s : State) (hpc : s.pc.toNat + 2 ≤ 255) (hsp : s.sp.toNat + 1 ≤ 255) :
    exec (.call (regByte ra)) s =
      .next { s.writeReg spIndex (s.sp + 1#8) with
        mem := s.mem.write (s.sp.toNat + 1) (s.pc + 2#8)
        pc := if ra = spIndex then s.sp + 1#8 else s.readReg ra } := by
  have hret : ((s.pc + 2#8).toNat : Int) = s.pc.toNat + 2 := Int.ofNat_inj.2 (add_toNat s.pc 2 hpc)
  rw [← readReg_writeReg_sp]
  exact exec_of_committed_setPc (.call ra hsp _ hret)

/-- The pushed byte stands at the new SP. -/
theorem read_pushed (s : State) (v : Byte) (hwf : s.mem.wf = true) (hsp : s.sp.toNat + 1 ≤ 255) :
    (s.mem.write (s.sp.toNat + 1) v).read (s.writeReg spIndex (s.sp + 1#8)).sp.toNat = v := by
  rw [writeReg_spIndex_sp, add_toNat s.sp 1 hsp, Memory.read_write_same s.mem _ v hwf]

/-- PUSH leaves its value at the new SP, and changes no register but SP. -/
theorem exec_push_top (ra : Fin 8) (s : State) (ok : s.config.table.ok = true) (hwf : s.mem.wf = true)
    (hra : ra ≠ spIndex) (hpc : s.pc.toNat + 2 ≤ 255) (hsp : s.sp.toNat + 1 ≤ 255) :
    ∃ t, exec (.push (regByte ra)) s = .next t ∧ t.config = s.config ∧ t.pc = s.pc + 2#8 ∧ t.sp = s.sp + 1#8 ∧
      t.mem.read t.sp.toNat = s.readReg ra ∧ ∀ q, q ≠ spIndex → t.readReg q = s.readReg q := by
  have hpush := exec_push_regByte ra s ok hpc hsp
  rw [if_neg hra] at hpush
  exact ⟨_, hpush, rfl, rfl, writeReg_spIndex_sp s _, read_pushed s _ hwf hsp,
    fun q hq => State.readReg_writeReg_other s spIndex q _ (Ne.symm hq)⟩

/-- CALL leaves its return address at the new SP. -/
theorem exec_call_top (ra : Fin 8) (s : State) (hwf : s.mem.wf = true) (hpc : s.pc.toNat + 2 ≤ 255)
    (hsp : s.sp.toNat + 1 ≤ 255) :
    ∃ t, exec (.call (regByte ra)) s = .next t ∧ t.sp = s.sp + 1#8 ∧ t.mem.read t.sp.toNat = s.pc + 2#8 :=
  ⟨_, exec_call_regByte ra s hpc hsp, writeReg_spIndex_sp s _, read_pushed s _ hwf hsp⟩

/-- An incremented SP is no sentinel unless it lands on its address, and decrements to what it was. -/
theorem incremented_sp (p : Byte) (h : p.toNat + 1 ≤ 255) (hne : p.toNat + 1 ≠ 0xF4) :
    p + 1#8 ≠ sentinel ∧ 0 < (p + 1#8).toNat ∧ p + 1#8 - 1#8 = p := by
  have hp := add_toNat p 1 h
  refine ⟨fun hs => hne ?_, by omega, BitVec.add_sub_cancel p 1#8⟩
  rw [← hp, hs]
  rfl

theorem exec_ret (s : State) (hs : s.sp ≠ sentinel) (h0 : 0 < s.sp.toNat) :
    exec .ret s = .next { s.writeReg spIndex (s.sp - 1#8) with pc := s.mem.read s.sp.toNat } :=
  exec_of_committed_setPc (.ret hs h0)

/-! ### The next opcode byte -/

/-- A Running machine fetches the byte at its PC next. -/
theorem nextOpcodeIs_of_read (t : State) (v : Byte) (ok : t.config.table.ok = true) (hrun : t.status = .running)
    (hv : t.mem.read t.pc.toNat = v) : NextOpcodeIs t v := by
  refine ⟨hv, fun i rest hd htwo => ?_, fun hout => ?_⟩
  · have hbytes : v :: (bytesAt t 3).drop 1 = bytesAt t 3 := by
      rw [bytesAt_three, hv]
      rfl
    rw [hbytes] at hd
    exact step_of_fetch t i hrun (fetch_of_decode t ok i rest hd htwo)
  · rw [← hv] at hout ⊢
    exact step_of_fetch_raised t _ _ hrun (fetch_of_not_in_table t hout)

end Sys2Proof.Machine
end

section
/-! The statements about the instructions: results, completion, frames. -/

namespace Sys2Proof.Proofs

open Sys2Proof.Machine Sys2Proof.Claims

/-- Settles O32: the ALU's result is the integer one mod 256, and only CMP commits flags. -/
theorem aluResultsReducedMod256 : Obligations.AluResultsReducedMod256 := by
  unfold Obligations.AluResultsReducedMod256
  refine ⟨exec_alu_naturalResult, fun ra rb s ok hpc => ⟨_, exec_cmp_regByte ra rb s ok hpc⟩,
    fun op a b s t hop h => ?_⟩
  refine (exec_flags_eq_or_cmp _ s t h).resolve_right ?_
  rintro ⟨c, d, hi⟩
  exact hop (op.eq_cmp_of_mnemonic ((op.instr_mnemonic a b).symm.trans (congrArg Instr.mnemonic hi)))

/-- Settles O33: the frame lemmas, for an instruction of an ALU operation. -/
theorem aluFrame : Obligations.AluFrame := by
  unfold Obligations.AluFrame
  intro op a b s t h
  have hm : ∀ m : Mnemonic, m.isAlu = false → (op.instr a b).mnemonic ≠ m := by
    rintro _ hna rfl
    rw [(Mnemonic.isAlu_iff _).2 ⟨op, (op.instr_mnemonic a b).symm⟩] at hna
    cases hna
  refine ⟨fun q hq => exec_readReg_eq _ s t h q ?_, fun hop => exec_flags_eq _ s t h ?_,
    exec_sameMemory _ s t h (hm .push rfl) (hm .call rfl), exec_out_eq _ s t h (hm .prn rfl),
    exec_config_eq _ s t h, exec_keepsStatusOrRaises _ s t h ?_⟩
  · rw [mayWrite_alu]
    rintro ⟨hop, ha⟩
    exact hq.elim hop fun hne => hne ha
  · rw [op.instr_mnemonic]
    exact mt op.eq_cmp_of_mnemonic hop
  · intro hi
    exact hm .hlt rfl (congrArg Instr.mnemonic hi)

/-- Settles O34: CMP commits the flags of the unsigned comparison. -/
theorem cmpOrdersUnsignedValues : Obligations.CmpOrdersUnsignedValues := by
  unfold Obligations.CmpOrdersUnsignedValues
  intro ra rb s ok hpc
  rw [exec_cmp_regByte ra rb s ok hpc]
  simp only [compareFlags, gt_iff_lt, BitVec.toNat_inj]

/-- Settles O36: the two results are the integer quotient and remainder, which are below 256. -/
theorem quotientAndRemainderAgree : Obligations.QuotientAndRemainderAgree := by
  unfold Obligations.QuotientAndRemainderAgree
  intro ra rb s ok hpc hy
  obtain ⟨q, hq, hdiv⟩ := exec_alu_naturalResult .div ra rb s _ ok hpc (if_neg hy)
  obtain ⟨r, hr, hmod⟩ := exec_alu_naturalResult .mod ra rb s _ ok hpc (if_neg hy)
  refine ⟨_, _, hdiv, hmod, ?_⟩
  simp only [State.setPc_readReg, State.readReg_writeReg_same]
  have hx := (s.readReg ra).isLt
  have hq' := toNat_of_emod q _ ((Nat.div_le_self _ _).trans_lt hx) (hq.trans (by rw [Int.natCast_div]))
  have hr' := toNat_of_emod r _ ((Nat.mod_le _ _).trans_lt hx) (hr.trans (by rw [Int.natCast_mod]))
  rw [hq', hr', mul_comm]
  exact ⟨Nat.div_add_mod _ _, Nat.mod_lt _ (Nat.pos_of_ne_zero hy)⟩

/-- Settles O37: `2 ^ y` is a multiple of 256 and above every byte. -/
theorem shiftByEightOrMoreGivesZero : Obligations.ShiftByEightOrMoreGivesZero := by
  unfold Obligations.ShiftByEightOrMoreGivesZero
  intro ra rb s ok hpc h8
  have hx := (s.readReg ra).isLt
  have hdvd : (256 : Int) ∣ 2 ^ (s.readReg rb).toNat := pow_dvd_pow 2 h8
  refine ⟨exec_alu_zero .shl ra rb s _ ok hpc rfl (Int.emod_eq_zero_of_dvd (hdvd.mul_left _)),
    exec_alu_zero .shr ra rb s _ ok hpc rfl ?_⟩
  have hle := Int.le_of_dvd (by positivity) hdvd
  rw [Int.ediv_eq_zero_of_lt (by omega) (by omega)]
  rfl

/-- Settles O39: HLT's effect is the state itself, with the action Halt. -/
theorem hltHaltsAndKeepsPc : Obligations.HltHaltsAndKeepsPc := by
  unfold Obligations.HltHaltsAndKeepsPc
  exact fun s => exec_of_committed .hlt

/-- Settles O40: the frame lemmas, for LDI and PRN, and HLT's exact next state. -/
theorem loadPrintHaltFrame : Obligations.LoadPrintHaltFrame := by
  unfold Obligations.LoadPrintHaltFrame
  refine ⟨fun a imm s t h => ?_, fun a s t h => ?_, fun s t h => ?_⟩
  · exact ⟨exec_readReg_eq _ s t h, exec_flags_eq _ s t h nofun, exec_sameMemory _ s t h nofun nofun,
      exec_out_eq _ s t h nofun, exec_config_eq _ s t h, exec_keepsStatusOrRaises _ s t h nofun⟩
  · exact ⟨fun q => exec_readReg_eq _ s t h q id, exec_flags_eq _ s t h nofun, exec_sameMemory _ s t h nofun nofun,
      exec_config_eq _ s t h, exec_keepsStatusOrRaises _ s t h nofun, exec_prn_out a s t h⟩
  · cases (hltHaltsAndKeepsPc s).symm.trans h
    exact ⟨fun _ => rfl, rfl, fun _ => rfl, rfl, rfl, rfl, rfl⟩

/-- Settles O41: PUSH's commit, with the register read after SP is incremented. -/
theorem pushStoresAtIncrementedSp : Obligations.PushStoresAtIncrementedSp := by
  unfold Obligations.PushStoresAtIncrementedSp
  exact exec_push_regByte

/-- Settles O42: POP's commit, with SP read after the register is loaded. -/
theorem popLoadsThenDecrementsSp : Obligations.PopLoadsThenDecrementsSp := by
  unfold Obligations.PopLoadsThenDecrementsSp
  exact fun ra s ok hpc hs => ⟨exec_pop_regByte ra s ok hpc hs, exec_pop_sp s ok hpc hs⟩

/-- Settles O43: POP's check of the sentinel, under each policy. -/
theorem popAtSentinelFollowsPolicy : Obligations.PopAtSentinelFollowsPolicy := by
  unfold Obligations.PopAtSentinelFollowsPolicy
  intro ra s ok hs
  refine ⟨fun hp hpc => exec_of_committed_advance (.popEmpty ra hs hp) 2 ok rfl hpc, fun hp => ?_⟩
  refine raises_of_ownError _ s _ _ (registerError_regByte _ ra rfl) ?_
  rw [ownError, if_pos ((sp_toNat_eq_sentinel s).2 hs), hp]

/-- Settles O44: the checks of `SP + 1` and of `SP - 1` fail at the ends of memory. -/
theorem stackInstructionsNeverWrapSp : Obligations.StackInstructionsNeverWrapSp := by
  unfold Obligations.StackInstructionsNeverWrapSp
  intro ra s
  refine ⟨fun hs => ?_, fun hs hpc => ?_, fun hs hra => ?_, fun hs => ?_, fun hs hv => ?_⟩
  · exact raises_of_ownError _ s _ _ (registerError_regByte _ ra rfl) (if_pos (by rw [hs]; rfl))
  · refine raises_of_ownError _ s _ _ (registerError_regByte _ ra rfl) ?_
    rw [ownError, if_neg (not_lt.2 hpc), if_pos (by rw [hs]; rfl)]
  · refine raises_of_ownError _ s _ _ (registerError_regByte _ ra rfl) ?_
    rw [ownError_pop_of_ne_sentinel ra s (by rw [hs]; decide), writeReg_sp_of_ne s ra _ hra,
      if_pos (by rw [hs]; rfl)]
  · refine raises_of_ownError _ s _ _ rfl ?_
    rw [ownError, hs]
    rfl
  · refine raises_of_ownError _ s _ _ (registerError_regByte _ spIndex rfl) ?_
    rw [ownError_pop_of_ne_sentinel spIndex s hs, writeReg_spIndex_sp, if_pos (by rw [hv]; rfl)]

/-- Settles O45: CALL's commit, with its register read after the push. -/
theorem callPushesReturnAddressAndJumps : Obligations.CallPushesReturnAddressAndJumps := by
  unfold Obligations.CallPushesReturnAddressAndJumps
  exact exec_call_regByte

/-- Settles O46: RET's commit, and its check of the sentinel. -/
theorem retPopsIntoPcOrUnderflows : Obligations.RetPopsIntoPcOrUnderflows := by
  unfold Obligations.RetPopsIntoPcOrUnderflows
  exact fun s => ⟨exec_ret s, fun hs => raises_of_ownError _ s _ _ rfl (if_pos ((sp_toNat_eq_sentinel s).2 hs))⟩

/-- Settles O47: the frame lemmas, for the four stack instructions. -/
theorem stackFrame : Obligations.StackFrame := by
  unfold Obligations.StackFrame
  intro i s t hi hwf h
  have hm : i.mnemonic ≠ .cmp ∧ i.mnemonic ≠ .prn ∧ i ≠ .hlt := by
    rcases hi with ⟨a, rfl | rfl | rfl⟩ | rfl <;> exact ⟨nofun, nofun, nofun⟩
  refine ⟨fun q hsp hpop => exec_readReg_eq i s t h q ?_, exec_flags_eq i s t h hm.1, exec_out_eq i s t h hm.2.1,
    exec_config_eq i s t h, exec_keepsStatusOrRaises i s t h hm.2.2, fun x hx => ?_⟩
  · rcases hi with ⟨a, rfl | rfl | rfl⟩ | rfl
    · exact hsp
    · exact not_or.2 ⟨hsp, hpop a rfl⟩
    · exact hsp
    · exact hsp
  · rcases exec_mem_cases i s t h with hmem | ⟨hstore, -, v, hmem⟩ <;> rw [hmem]
    exact Memory.read_write_other s.mem _ x v hwf (hx hstore).symm

/-- Settles O48: JMP's commit. -/
theorem jmpSetsPcToRegister : Obligations.JmpSetsPcToRegister := by
  unfold Obligations.JmpSetsPcToRegister
  exact fun ra s => exec_of_committed_setPc (.jmp ra)

/-- Settles O49: the two commits of JEQ, and its check of the fall-through. -/
theorem jeqTakenIffEqualFlagSet : Obligations.JeqTakenIffEqualFlagSet := by
  unfold Obligations.JeqTakenIffEqualFlagSet
  intro ra s
  refine ⟨fun he => exec_of_committed_setPc (.jeqTaken ra he), fun he hpc => ?_, fun he hpc => ?_⟩
  · exact exec_of_committed_setPc (.jeqNot ra he _ (Int.ofNat_inj.2 (add_toNat s.pc 2 hpc)))
  · exact raises_of_ownError _ s _ _ (registerError_regByte _ ra rfl) (if_pos ⟨he, hpc⟩)

/-- Settles O50: the two commits of JNE, and its check of the fall-through. -/
theorem jneTakenIffEqualFlagClear : Obligations.JneTakenIffEqualFlagClear := by
  unfold Obligations.JneTakenIffEqualFlagClear
  intro ra s
  refine ⟨fun he => exec_of_committed_setPc (.jneTaken ra he), fun he hpc => ?_, fun he hpc => ?_⟩
  · exact exec_of_committed_setPc (.jneNot ra he _ (Int.ofNat_inj.2 (add_toNat s.pc 2 hpc)))
  · exact raises_of_ownError _ s _ _ (registerError_regByte _ ra rfl) (if_pos ⟨he, hpc⟩)

/-- Settles O51: the frame lemmas, for the three jumps. -/
theorem jumpFrame : Obligations.JumpFrame := by
  unfold Obligations.JumpFrame
  rintro i s t ⟨a, rfl | rfl | rfl⟩ h <;>
    exact ⟨fun q => exec_readReg_eq _ s t h q id, exec_flags_eq _ s t h nofun, exec_sameMemory _ s t h nofun nofun,
      exec_out_eq _ s t h nofun, exec_config_eq _ s t h, exec_keepsStatusOrRaises _ s t h nofun⟩

/-- Settles O52: POP reads the byte PUSH wrote, at the SP PUSH left. -/
theorem pushThenPopRestoresValueAndSp : Obligations.PushThenPopRestoresValueAndSp := by
  unfold Obligations.PushThenPopRestoresValueAndSp
  intro ra rb s ok hwf hra hrb hsp hne hpc
  obtain ⟨t, hpush, hcfg, hpct, hspt, htop, hregs⟩ := exec_push_top ra s ok hwf hra (by omega) hsp
  obtain ⟨hsent, hpos, hback⟩ := incremented_sp s.sp hsp hne
  have hpc2 := add_toNat s.pc 2 (by omega)
  rw [← hspt] at hsent hpos hback
  rw [← hpct] at hpc2
  have hpop := exec_pop_regByte rb t (hcfg ▸ ok) (by omega) hsent hrb hpos
  have hrb' : spIndex ≠ rb := Ne.symm hrb
  refine ⟨t, _, hpush, hpop, ?_, ?_, ?_, fun q hq => ?_⟩
  · rw [State.setPc_readReg, State.readReg_writeReg_other _ spIndex rb _ hrb', State.readReg_writeReg_same, htop]
  · exact (writeReg_spIndex_sp _ _).trans hback
  · exact (add_toNat t.pc 2 (by omega)).trans (by omega)
  · rw [State.setPc_readReg, readReg_writeReg_sp]
    split
    · next hqsp => rw [hqsp, hback, State.sp_eq]
    · next hqsp => rw [State.readReg_writeReg_other _ rb q _ (Ne.symm hq), hregs q hqsp]

/-- Settles O53: RET pops the address CALL pushed, at the SP CALL left. -/
theorem retReturnsToCallSitePlusTwo : Obligations.RetReturnsToCallSitePlusTwo := by
  unfold Obligations.RetReturnsToCallSitePlusTwo
  intro ra s hwf hpc hsp hne
  obtain ⟨t, hcall, hspt, htop⟩ := exec_call_top ra s hwf hpc hsp
  obtain ⟨hsent, hpos, hback⟩ := incremented_sp s.sp hsp hne
  refine ⟨t, hcall, fun v hv hread => ?_⟩
  rw [← hspt, ← hv] at hsent hpos hback
  refine ⟨_, exec_ret v hsent hpos, ?_, (writeReg_spIndex_sp v _).trans hback⟩
  rw [hread, htop]
  exact add_toNat s.pc 2 hpc

/-- Settles O54: CMP sets FL.E exactly when the values are equal, and the branches read it. -/
theorem cmpThenBranchOnEquality : Obligations.CmpThenBranchOnEquality := by
  unfold Obligations.CmpThenBranchOnEquality
  intro ra rb rc s ok hpc
  have hpc3 := add_toNat s.pc 3 (by omega)
  have hsum : s.pc + 3#8 + 2#8 = s.pc + 5#8 := BitVec.add_assoc s.pc 3#8 2#8
  refine ⟨_, exec_cmp_regByte ra rb s ok (by omega), ?_, ?_⟩
  · rw [exec_jeq_regByte rc _ (hpc3 ▸ by omega : (s.pc + 3#8).toNat + 2 ≤ 255)]
    simp only [compareFlags, decide_eq_true_eq, hsum]
    rfl
  · rw [exec_jne_regByte rc _ (hpc3 ▸ by omega : (s.pc + 3#8).toNat + 2 ≤ 255)]
    simp only [compareFlags, decide_eq_false_iff_not, ite_not, hsum]
    rfl

/-- Settles O55: the stored byte is read back at the next PC, whatever is fetched there. -/
theorem storedByteIsFetchedNext : Obligations.StoredByteIsFetchedNext := by
  unfold Obligations.StoredByteIsFetchedNext
  intro ra s ok hwf hrun hpc hsp
  have hspt := add_toNat s.sp 1 hsp
  have hread : ∀ (v p : Byte), p.toNat = s.sp.toNat + 1 → (s.mem.write (s.sp.toNat + 1) v).read p.toNat = v :=
    fun v p hp => by rw [hp, Memory.read_write_same s.mem _ v hwf]
  refine ⟨fun hat => ⟨_, exec_push_regByte ra s ok hpc hsp, nextOpcodeIs_of_read _ _ ok hrun (hread _ _ ?_)⟩,
    fun hat => ⟨_, exec_call_regByte ra s hpc hsp, nextOpcodeIs_of_read _ _ ok hrun (hread _ _ ?_)⟩⟩
  · exact (add_toNat s.pc 2 hpc).trans hat.symm
  · by_cases hra : ra = spIndex
    · rw [if_pos hra, hspt]
    · rw [if_neg hra, hat.resolve_left hra]

end Sys2Proof.Proofs
end

section
/-! SUPPORT. Boot and the host: the reset state, the launch, the image text and the runs under `FUEL`
(`70_reset_and_hazards.md` R130 to R137, `00_scope.md` R10). -/

namespace Sys2Proof.Machine

open Sys2Proof.Claims

/-! ### Reset and launch -/

theorem resetRegs_get (r : Fin 8) : resetRegs[r] = if r = spIndex then 0xF4#8 else 0#8 := by
  revert r
  decide

/-- Loading an image that fits keeps the invariant of a Running machine. -/
theorem Inv.load {s : State} (h : Inv s) (hrun : s.status = .running) (img : List Byte) (hlen : img.length ≤ 256) :
    Inv (s.load img) where
  memCanonical := State.load_wf s img h.memCanonical hlen
  tableOk := h.tableOk
  flagsExclusive := h.flagsExclusive
  errorHalts := h.errorHalts
  errorRecord := fun e he => by
    cases (h.error_eq_none hrun).symm.trans he

/-- Memory after an image was loaded into empty memory: the image, and 0 from its end on. -/
theorem read_load_construct (c : Config) (img : List Byte) (hlen : img.length ≤ 256) (x : Nat) :
    ((State.construct c).load img).mem.read x = img.getD x 0#8 := by
  have hfit : 0 + img.length ≤ 256 := by omega
  rw [List.getD_eq_getElem?_getD]
  cases hx : img[x]? with
  | some v =>
    have hread := Memory.read_writeAll_add img _ 0 x v (State.construct_wf c) hfit hx
    rwa [Nat.zero_add] at hread
  | none =>
    rw [List.getElem?_eq_none_iff] at hx
    exact Memory.read_writeAll_outside img _ 0 x (State.construct_wf c) hfit (by omega)

theorem launch_of_length_le (c : Config) (img : List Byte) (ok : c.table.ok = true) (hlen : img.length ≤ 256) :
    launch c img = .next ((State.construct c).load img) :=
  (if_pos ok).trans (if_pos hlen)

theorem launch_of_length_gt (c : Config) (img : List Byte) (ok : c.table.ok = true) (hlen : 256 < img.length) :
    launch c img = .refused .imageTooLong :=
  (if_pos ok).trans (if_neg (by omega))

/-! ### The image text -/

/-- The low `k` bits of a number, the most significant first, are read back as its value mod `2 ^ k`. -/
theorem binaryDigits_testBit (x k acc : Nat) (text : List Char) :
    binaryDigits k acc (((List.range k).map fun j => if x.testBit (k - 1 - j) then '1' else '0') ++ text) =
      some (acc * 2 ^ k + x % 2 ^ k, text) := by
  induction k generalizing acc with
  | zero => simp [binaryDigits, Nat.mod_one]
  | succ k ih =>
    have hrest : ((List.range k).map Nat.succ).map (fun j => if x.testBit (k + 1 - 1 - j) then '1' else '0') =
        (List.range k).map fun j => if x.testBit (k - 1 - j) then '1' else '0' := by
      rw [List.map_map]
      refine List.map_congr_left fun j _ => ?_
      rw [Function.comp, show k + 1 - 1 - j.succ = k - 1 - j by omega]
    rw [List.range_succ_eq_map, List.map_cons, hrest, List.cons_append, Nat.mod_pow_succ,
      ← Nat.toNat_testBit, pow_succ]
    cases hbit : x.testBit k with
    | false =>
      simp only [binaryDigits, Nat.add_sub_cancel, Nat.sub_zero, hbit, if_true, Bool.false_eq_true, if_false, ih,
        Bool.toNat_false]
      ring_nf
    | true =>
      simp only [binaryDigits, Nat.add_sub_cancel, Nat.sub_zero, hbit, if_true, Char.reduceEq, if_false, ih,
        Bool.toNat_true]
      ring_nf

/-- The eight digits of a byte are read back as its value, whatever follows. -/
theorem binaryDigits_digits (v : Byte) (text : List Char) :
    binaryDigits 8 0 (digits v ++ text) = some (v.toNat, text) := by
  have h := binaryDigits_testBit v.toNat 8 0 text
  rw [Nat.zero_mul, Nat.zero_add, Nat.mod_eq_of_lt v.isLt] at h
  exact h

theorem commentOrEnd_blanks (blanks comment : List Char) (atEnd : Bool) (h : ∀ c ∈ blanks, c = ' ') :
    commentOrEnd atEnd (blanks ++ '#' :: comment) = true := by
  induction blanks generalizing atEnd with
  | nil => rfl
  | cons c rest ih =>
    obtain rfl := h c List.mem_cons_self
    exact ih false fun d hd => h d (List.mem_cons_of_mem _ hd)

/-- A byte's digits, with a comment or nothing behind them, are the line of that byte. -/
theorem parseLine_digits (v : Byte) (rest : List Char) (h : commentOrEnd true rest = true) :
    parseLine (digits v ++ rest) = some (some v) := by
  obtain ⟨c, l, hcons, hc⟩ : ∃ c l, digits v ++ rest = c :: l ∧ c ≠ '#' := by
    refine ⟨if v.getLsbD 7 then '1' else '0', _, rfl, ?_⟩
    split <;> decide
  have hdigits := binaryDigits_digits v rest
  rw [hcons] at hdigits ⊢
  simp only [parseLine, hc, if_false, hdigits, h, if_true]
  simp

theorem newline_notMem_digits (v : Byte) : '\n' ∉ digits v := by
  rw [digits, List.mem_map]
  rintro ⟨k, -, hk⟩
  split at hk <;> cases hk

theorem parseLines_byte (line : List Char) (lines : List (List Char)) (v : Byte) (h : parseLine line = some (some v)) :
    parseLines (line :: lines) = (parseLines lines).map fun bytes => v :: bytes := by
  rw [parseLines, h]
  cases parseLines lines <;> rfl

theorem parseLines_skipped (line : List Char) (lines : List (List Char)) (h : parseLine line = some none) :
    parseLines (line :: lines) = parseLines lines := by
  rw [parseLines, h]
  cases parseLines lines <;> rfl

theorem parseLines_malformed (line : List Char) (lines : List (List Char)) (h : parseLine line = none) :
    parseLines (line :: lines) = none := by
  rw [parseLines, h]

/-- Skipped lines add nothing, wherever they stand. -/
theorem parseLines_filter (lines : List (List Char)) :
    parseLines (lines.filter fun line => decide (parseLine line ≠ some none)) = parseLines lines := by
  induction lines with
  | nil => rfl
  | cons line rest ih =>
    rw [List.filter_cons]
    cases h : parseLine line with
    | none => simp [parseLines_malformed _ _ h]
    | some o =>
      cases o with
      | none => simpa [parseLines_skipped _ _ h] using ih
      | some v => simp [parseLines_byte _ _ v h, ← ih]

theorem parseLines_digits (img : List Byte) : parseLines (img.map digits) = some img := by
  induction img with
  | nil => rfl
  | cons v rest ih =>
    have hv : parseLine (digits v) = some (some v) := by
      have h := parseLine_digits v [] rfl
      rwa [List.append_nil] at h
    rw [List.map_cons, parseLines_byte _ _ v hv, ih]
    rfl

/-- Joined lines are cut where they were joined. -/
theorem splitLines_joinLines (lines : List (List Char)) (h : ∀ line ∈ lines, '\n' ∉ line) (hne : lines ≠ []) :
    splitLines (joinLines lines) = lines := by
  induction lines with
  | nil => exact absurd rfl hne
  | cons line rest ih =>
    have hline := h line List.mem_cons_self
    cases rest with
    | nil => exact splitLines_line line hline
    | cons next more =>
      have hrest := ih (fun l hl => h l (List.mem_cons_of_mem _ hl)) nofun
      rw [joinLines, splitLines_append line _ hline, hrest]
      nofun

theorem parseImage_joinLines (lines : List (List Char)) (h : ∀ line ∈ lines, '\n' ∉ line) :
    parseImage (joinLines lines) = parseLines lines := by
  cases lines with
  | nil => rfl
  | cons line rest => rw [parseImage, splitLines_joinLines _ h nofun]

theorem parseImage_digits (img : List Byte) : parseImage (joinLines (img.map digits)) = some img := by
  rw [parseImage_joinLines, parseLines_digits]
  intro line hline
  obtain ⟨v, -, rfl⟩ := List.mem_map.1 hline
  exact newline_notMem_digits v

/-! ### Runs under `FUEL` -/

/-- A run has at most one end. -/
theorem runFuel_end_unique (n k : Nat) (s t u : State) (ht : runFuel n s = .next t) (hu : runFuel k s = .next u)
    (htend : t.status = .halted) (huend : u.status = .halted) : t = u := by
  have h := runFuel_add k n s t ht htend
  rw [Nat.add_comm, runFuel_add n k s u hu huend] at h
  cases h
  rfl

theorem RunEnds.not_cut {f : Fuel} {s t u : State} (h : RunEnds f s t) : ¬ RunIsCut f s u := by
  rintro ⟨hrun, k, rfl, hu⟩
  obtain ⟨hend, n, hle, ht⟩ := h
  have h := runFuel_add (k - n) n s t ht hend
  rw [Nat.add_sub_cancel' hle, hu] at h
  cases h
  rw [hrun] at hend
  cases hend

theorem RunEnds.not_goesOn {f : Fuel} {s t : State} (h : RunEnds f s t) : ¬ RunGoesOn f s := by
  rintro ⟨-, hall⟩
  obtain ⟨hend, n, -, ht⟩ := h
  obtain ⟨u, hu, hrun⟩ := hall n
  cases ht.symm.trans hu
  rw [hrun] at hend
  cases hend

theorem RunIsCut.not_goesOn {f : Fuel} {s t : State} (h : RunIsCut f s t) : ¬ RunGoesOn f s := by
  rintro ⟨rfl, -⟩
  obtain ⟨-, n, hn, -⟩ := h
  cases hn

theorem Status.eq_running_of_ne (x : Status) (h : x ≠ .halted) : x = .running := by
  cases x with
  | running => rfl
  | halted => exact absurd rfl h

/-- A budgeted run from a state that meets the invariant ends in it or is cut. -/
theorem run_steps_cases (n : Nat) (s : State) (h : Inv s) :
    (∃ t, RunEnds (.steps n) s t) ∨ ∃ t, RunIsCut (.steps n) s t := by
  obtain ⟨t, ht, -⟩ := runFuel_next n s h
  by_cases hend : t.status = .halted
  · exact .inl ⟨t, hend, n, le_rfl, ht⟩
  · exact .inr ⟨t, t.status.eq_running_of_ne hend, n, rfl, ht⟩

theorem run_unbounded_cases (s : State) (h : Inv s) : (∃ t, RunEnds .unbounded s t) ∨ RunGoesOn .unbounded s := by
  by_cases hends : ∃ t, RunEnds .unbounded s t
  · exact .inl hends
  · refine .inr ⟨rfl, fun n => ?_⟩
    obtain ⟨t, ht, -⟩ := runFuel_next n s h
    exact ⟨t, ht, t.status.eq_running_of_ne fun hend => hends ⟨t, hend, n, trivial, ht⟩⟩

end Sys2Proof.Machine
end

section
/-! The statements about reset, load, boot and the runs. -/

namespace Sys2Proof.Proofs

open Sys2Proof.Machine Sys2Proof.Claims

/-- Settles O56: each field of the constructed state, and the registers one by one. -/
theorem resetStateIsAsSpecified : Obligations.ResetStateIsAsSpecified := by
  unfold Obligations.ResetStateIsAsSpecified
  exact ⟨fun _ => resetRegs_get, fun _ => ⟨rfl, rfl, rfl, rfl, rfl, fun _ => rfl, rfl⟩, rfl⟩

/-- Settles O58: the launch's length check, and the load into a fresh machine. -/
theorem launchLoadsOrRefuses : Obligations.LaunchLoadsOrRefuses := by
  unfold Obligations.LaunchLoadsOrRefuses
  intro c img ok
  refine ⟨launch_of_length_gt c img ok, fun hlen => ⟨_, launch_of_length_le c img ok hlen, rfl, rfl, ?_, ?_, ?_⟩⟩
  · exact resetRegs_get spIndex
  · exact (Inv.construct c ok).load rfl img hlen
  · exact read_load_construct c img hlen

/-- Settles O59: a line is read digit by digit, and a text is cut where its lines were joined. -/
theorem imageTextGivesItsBytes : Obligations.ImageTextGivesItsBytes := by
  unfold Obligations.ImageTextGivesItsBytes
  refine ⟨fun v blanks comment hblanks => ⟨?_, ?_⟩, fun comment => ⟨rfl, rfl⟩, rfl,
    fun line lines => ⟨parseLines_byte line lines, parseLines_skipped line lines, parseLines_malformed line lines⟩,
    fun lines hlines => ⟨splitLines_joinLines lines hlines, parseImage_joinLines lines hlines, ?_⟩,
    parseImage_digits, fun c img => ?_⟩
  · rw [List.append_assoc]
    exact parseLine_digits v _ (commentOrEnd_blanks blanks comment true hblanks)
  · exact List.append_nil (digits v) ▸ parseLine_digits v [] rfl
  · rw [parseImage_joinLines lines hlines,
      parseImage_joinLines _ fun line hline => hlines line (List.mem_of_mem_filter hline), parseLines_filter]
  · simp only [launchText, parseImage_digits]

/-- Settles O60: an end is final, so it excludes a cut and a run for ever, and is the same under every budget. -/
theorem everyRunEndsIsCutOrGoesOn : Obligations.EveryRunEndsIsCutOrGoesOn := by
  unfold Obligations.EveryRunEndsIsCutOrGoesOn
  intro f s h
  refine ⟨?_, fun t ht => ⟨fun u => ht.not_cut, ht.not_goesOn⟩, fun t ht => ht.not_goesOn, ?_, fun t => ⟨?_, ?_⟩⟩
  · cases f with
    | steps n => exact (run_steps_cases n s h).imp_right .inl
    | unbounded => exact (run_unbounded_cases s h).imp_right .inr
  · rintro t u ⟨htend, n, -, ht⟩ ⟨huend, k, -, hu⟩
    exact runFuel_end_unique n k s t u ht hu htend huend
  · rintro ⟨hend, n, -, ht⟩
    exact ⟨n, hend, n, le_rfl, ht⟩
  · rintro ⟨k, hend, n, -, ht⟩
    exact ⟨hend, n, trivial, ht⟩

end Sys2Proof.Proofs
end
